-- ==== Sys2Proof/Word.lean ====
section
/-! DEFINITION. The word types of the block: the byte, the 2-byte header, the 4-byte payload, the frame
the request port can carry, and the fixed-size frame buffer (spec/00_scope.md R8 to R10). -/

namespace Sys2Proof

/-- A byte, 0..255 (R9). -/
abbrev Byte := BitVec 8

/-- A header: exactly two bytes, CMD1 then CMD2 (R10, R14). -/
structure Header where
  cmd1 : Byte
  cmd2 : Byte
  deriving DecidableEq, Repr, Inhabited

/-- Four data bytes in wire order: a timecode payload (R76) or a userbits group (R37, R77). -/
structure Quad where
  b0 : Byte
  b1 : Byte
  b2 : Byte
  b3 : Byte
  deriving DecidableEq, Repr, Inhabited

/-- A UBGroup: the four data bytes of one userbits reply (R37). -/
abbrev UBGroup := Quad

/-- A header whose length nibble is 4, held as the two free fields of the table's pattern
`gggg0100cccccccc`: constraint (a) of R8 (R80) holds of every such header by its type. -/
structure Hdr4 where
  g : BitVec 4
  c : Byte
  deriving DecidableEq, Repr, Inhabited

/-- A frame as the request port carries it: 1 to 18 bytes, the last one the checksum slot (R41). -/
structure Frame where
  bytes : List Byte
  pos : 1 ≤ bytes.length
  le : bytes.length ≤ 18
  deriving DecidableEq, Repr

/-- A frame buffer of `n` bytes, addressed by zero-based index (R50, R51). -/
structure Buffer (n : Nat) where
  bytes : List Byte
  len : bytes.length = n
  deriving DecidableEq, Repr

end Sys2Proof
end

