-- ==== Sys2Proof/Config.lean ====
section
/-! DEFINITION. The configuration of spec/00_scope.md R8 (fixed numbers, OPEN parameters), the opaque
types of the host, and the free values: constants without a body, of which nothing can be proved. -/

namespace Sys2Proof

/-- `HDR_LEN` (R8). -/
def hdrLen : Nat := 2
/-- `MAX_DATA` (R8). -/
def maxData : Nat := 15
/-- `CKS_LEN` (R8). -/
def cksLen : Nat := 1
/-- `MAX_FRAME` (R8). -/
def maxFrame : Nat := hdrLen + maxData + cksLen

/-- A VideoCommand: an immutable value used for equality-based routing (R165). The names are those the
document gives (R88); every other command is `other` with a name the model does not read (log 28). -/
inductive VideoCommand where
  | play
  | stop
  | record
  | shuttle
  | requestTimecode
  | requestUserbits
  | requestLocalUserbits
  | requestVerticalUserbits
  | requestTimestamp
  | requestElapsedTime
  | injectVideoIndex
  | other (name : Nat)
  deriving DecidableEq, Repr, Inhabited

/-- RS422State: an opaque type (R38). Two values are equal or not; the one observer is
`Config.isRecording`. -/
structure RS422State where
  token : Nat
  deriving DecidableEq, Repr, Inhabited

/-- The host's wall-clock type `Instant` (R173), of which only equality is known. -/
structure Instant where
  token : Nat
  deriving DecidableEq, Repr, Inhabited

/-- The five timecode-source headers `P.TC_HDR` (R8, R79). -/
structure TcHeaders where
  ltc : Hdr4
  vtc : Hdr4
  altLtc : Hdr4
  timer1 : Hdr4
  timer2 : Hdr4
  deriving DecidableEq, Repr, Inhabited

/-- The five timecode headers as a list. -/
def TcHeaders.all (t : TcHeaders) : List Hdr4 := [t.ltc, t.vtc, t.altLtc, t.timer1, t.timer2]

/-- No header of one list stands in the other. -/
def disjoint (a b : List Hdr4) : Bool := a.all fun h => !b.contains h

/-- Constraint (b) of R8 (R80): the three header sets are pairwise disjoint. -/
def headersDisjoint (tc : TcHeaders) (ubLocal ubVert : List Hdr4) : Bool :=
  disjoint tc.all ubLocal && disjoint tc.all ubVert && disjoint ubLocal ubVert

/-- The configuration supplied at construction (R8): every OPEN parameter that can be written as data
(log 4). A configuration that breaks constraint (a) or (b) of R8 is refused where it is written down: it
is no term of this type (log 18). The values given here are those of one inhabitant and no block's. -/
structure Config where
  /-- `P.DELAY`, milliseconds, may be 0. -/
  delay : Nat := 0
  /-- `P.TC_HDR`. -/
  tcHdr : TcHeaders := default
  /-- `P.UB_LOCAL_HDR`, a finite set of headers. -/
  ubLocalHdr : List Hdr4 := []
  /-- `P.UB_VERT_HDR`, a finite set of headers. -/
  ubVertHdr : List Hdr4 := []
  /-- `P.is_status`, a predicate on the 16 header bits, as the finite set of the headers it holds of. It
  may overlap the other classes (R80). -/
  statusHdr : List Header := []
  /-- `P.DEBUG`. -/
  debug : Bool := false
  /-- HOST: `P.encode_cmd`, the command table; a command it does not list has the encoding `UNDEFINED`. -/
  table : List (VideoCommand × Frame) := []
  /-- Constraint (b) of R8. -/
  apart : headersDisjoint tcHdr ubLocalHdr ubVertHdr = true := by decide
  deriving DecidableEq, Repr, Inhabited

/-- The configuration this block was constructed with: whatever its builder supplied that meets the
constraints of R8 (R46). -/
opaque Config.supplied : Config

/-- `P.decode_status`: uninterpreted, a total function of its three arguments (R124). -/
opaque Config.decodeStatus : Header → List Byte → VideoCommand → RS422State

/-- The one named observer of RS422State (R38). -/
opaque Config.isRecording : RS422State → Bool

/-- The host's wall clock `now()`: a draw per use (R176, U8), the n-th draw of the run. -/
opaque Config.now : Nat → Instant

/-- Whether the logging of a raised error is gated by `P.DEBUG` ("not said", R203, U13). -/
opaque Config.errorLogGated : Bool

/-- Whether a value that a no-op command publishes becomes the Event Hub's `last_vi` (not said, R178, N14). -/
opaque Config.noopSetsLastVi : Bool

end Sys2Proof
end

