-- ==== Sys2Proof/Syntax.lean ====
section
/-! DEFINITION. The operations of the block as syntax: one constructor of `Instr` for each row of
spec/opcode_table.json, and the images (selector and bytes) an operation is decoded from. -/

namespace Sys2Proof

/-- The five error kinds (spec/60_exceptions.md R185). -/
inductive ErrKind where
  | ioFailure
  | missingData
  | missingChecksum
  | checksumMismatch
  | interrupted
  deriving DecidableEq, Repr, Inhabited

/-- The opaque cause a failed channel primitive hands up: an I/O cause or the interruption (R56, U20). -/
inductive Cause where
  | io (token : Nat)
  | interruption (token : Nat)
  deriving DecidableEq, Repr, Inhabited

/-- RS422Timecode: four natural numbers (spec/10_state.md R36). -/
structure Timecode where
  hours : Nat
  minutes : Nat
  seconds : Nat
  frames : Nat
  deriving DecidableEq, Repr, Inhabited

/-- RS422Userbits: the two fields, local and vertical (R37). -/
structure Userbits where
  localGroup : Option UBGroup
  verticalGroup : Option UBGroup
  deriving DecidableEq, Repr, Inhabited

/-- The operations, one constructor per row of spec/opcode_table.json, in the table's order. -/
inductive Instr where
  /-- FRAME (R70): the host presents the frame and its tag at the request port (R41). -/
  | frame (f : Frame) (g : VideoCommand)
  /-- ACCEPT (R131). -/
  | accept
  /-- SEND (R132). -/
  | send
  /-- WAIT_A (R133). -/
  | waitA
  /-- RDHDR (R134). -/
  | rdhdr
  /-- RDDATA (R135). -/
  | rddata
  /-- WAIT_B (R136). -/
  | waitB
  /-- RDCKS (R137). -/
  | rdcks
  /-- PARSE (R138). -/
  | parse
  /-- P_VERIFY (R151): the checksum gate on header, data and received checksum. -/
  | pVerify (h : Header) (d : List Byte) (c : Byte)
  /-- P_TC.LTC (R153). -/
  | pTcLtc (d : Quad)
  /-- P_TC.VTC (R153). -/
  | pTcVtc (d : Quad)
  /-- P_TC.ALT_LTC (R153). -/
  | pTcAltLtc (d : Quad)
  /-- P_TC.TIMER1 (R153). -/
  | pTcTimer1 (d : Quad)
  /-- P_TC.TIMER2 (R153). -/
  | pTcTimer2 (d : Quad)
  /-- P_UB_LOCAL (R154): the header is a member of `P.UB_LOCAL_HDR`. -/
  | pUbLocal (h : Header) (d : Quad)
  /-- P_UB_VERT (R155). -/
  | pUbVert (h : Header) (d : Quad)
  /-- P_STATUS (R156); its third operand, the tag, is the register TAG. -/
  | pStatus (h : Header) (d : List Byte)
  /-- P_DROP (R157). -/
  | pDrop (h : Header) (d : List Byte)
  /-- CKSUM (R90). -/
  | cksum (s : List Byte)
  /-- STAMP (R91): the frame is `body` followed by the checksum slot, whose old value is `slot`. -/
  | stamp (body : List Byte) (slot : Byte)
  /-- VERIFY (R92). -/
  | verify (h : Header) (d : List Byte) (c : Byte)
  /-- LEN (R100). -/
  | len (b : Byte)
  /-- FLEN (R101). -/
  | flen (b : Byte)
  /-- WF (R102). -/
  | wf (f : List Byte)
  /-- WFS (R102). -/
  | wfs (f : List Byte)
  /-- SPLIT (R103). -/
  | split (f : List Byte)
  /-- HEXFMT (R106). -/
  | hexfmt (s : List Byte)
  /-- TCDEC (R110). -/
  | tcdec (b : Byte)
  /-- TCENC (R111): the document's operand is an `int`. -/
  | tcenc (v : Int)
  /-- TC4DEC (R112). -/
  | tc4dec (d : Quad)
  /-- TC4ENC (R113). -/
  | tc4enc (t : Timecode)
  /-- ISTC (R115). -/
  | istc (h : Header)
  /-- UBDEC (R120). -/
  | ubdec (d : Quad)
  /-- UBPACK (R121). -/
  | ubpack (u : Userbits)
  /-- ISUBL (R122). -/
  | isubl (h : Header)
  /-- ISUBV (R122). -/
  | isubv (h : Header)
  /-- ISSTATUS (R123). -/
  | isstatus (h : Header)
  /-- STDEC (R124). -/
  | stdec (h : Header) (d : List Byte) (g : VideoCommand)
  /-- RAISE (R193): the common tail of every failing step. -/
  | raise (k : ErrKind) (cause : Option Cause)
  /-- HOST: request userbits (R166). -/
  | requestUserbits
  /-- HOST: request timestamp (R167). -/
  | requestTimestamp
  /-- HOST: request elapsed time (R167). -/
  | requestElapsedTime
  /-- HOST: any other VideoCommand (R168). -/
  | otherVideoCommand (c : VideoCommand)
  deriving DecidableEq, Repr

/-- The codec functions by name: no opcode selects one, the caller names it (opcode_table.json, format
`fn`). STDEC's tag is no part of its bytes, so the caller hands it over with the name. -/
inductive FnName where
  | cksum | stamp | verify | len | flen | wf | wfs | split | hexfmt | tcdec | tcenc | tc4dec | tc4enc
  | istc | ubdec | ubpack | isubl | isubv | isstatus
  | stdec (g : VideoCommand)
  deriving DecidableEq, Repr

/-- Where an operation is selected from: the table's column `format`. What the bytes of a row do not
say (a request's tag, a raise's cause, a host command's name) stands in the selector (log 2). -/
inductive Selector where
  | request (g : VideoCommand)
  | phase
  | reply
  | fn (n : FnName)
  | trap (cause : Option Cause)
  | host (c : VideoCommand)
  deriving DecidableEq, Repr

/-- An operation as it stands before it is decoded: its selector and its bytes in wire order. -/
structure Image where
  sel : Selector
  bytes : List Byte
  deriving DecidableEq, Repr

/-- Why an image is no operation. -/
inductive DecodeError where
  /-- A phase code above 7: PHASE is 3 bits wide (R21). -/
  | phaseCode
  /-- A request of no byte or of more than 18: the port cannot carry it (R41). -/
  | requestLength
  /-- A request whose length is not the `3 + N` its first byte announces: the host's duty is to present
  well-formed frames only (R170 item 3). -/
  | requestShape
  /-- A reply that is not `3 + LEN(CMD1)` bytes long: no such reply is ever assembled (R104). -/
  | replyShape
  /-- A codec operand of the wrong number of bytes. -/
  | operandLength
  /-- A byte that is no value's TCENC encoding: its units nibble is above 9 (R111). -/
  | notCanonical
  /-- An error label outside E1..E5 (R185). -/
  | trapKind
  /-- A cause the kind does not carry (the column `cause` of R185). -/
  | trapCause
  /-- A host command with operand bytes: it has none (R166 to R168). -/
  | hostOperand
  deriving DecidableEq, Repr

end Sys2Proof
end

