-- ==== Sys2Proof/Machine/Operands.lean ====
section
/-! DEFINITION. Operand assembly: nibbles, the length nibble, headers and payloads as byte sequences,
and the layout of the frame buffers (spec/00_scope.md R9, spec/30_encoding.md R70 to R77). -/

namespace Sys2Proof

/-- The high nibble `b[7:4]` (R9). -/
def hi (b : Byte) : Nat := b.toNat / 16

/-- The low nibble `b[3:0]` (R9). -/
def lo (b : Byte) : Nat := b.toNat % 16

/-- The byte with the given nibbles, `16*t + u`. -/
def nibbles (t u : Nat) : Byte := BitVec.ofNat 8 (16 * t + u)

/-- A header as its two bytes, CMD1 first (R57). -/
def Header.bytes (h : Header) : List Byte := [h.cmd1, h.cmd2]

/-- The header at the front of a byte sequence. -/
def Header.ofList (l : List Byte) : Header := ⟨l.getD 0 0, l.getD 1 0⟩

/-- The four bytes in wire order. -/
def Quad.bytes (q : Quad) : List Byte := [q.b0, q.b1, q.b2, q.b3]

/-- `DATA[0]` to `DATA[3]`. -/
def Quad.ofList (l : List Byte) : Quad := ⟨l.getD 0 0, l.getD 1 0, l.getD 2 0, l.getD 3 0⟩

/-- The two bytes of a header with length nibble 4: `gggg0100 cccccccc`. -/
def Hdr4.header (h : Hdr4) : Header := ⟨nibbles h.g.toNat 4, h.c⟩

/-- A buffer from a byte sequence (cut, or filled up with zeros, to the buffer's size; every use hands
over exactly `n` bytes). -/
def Buffer.ofList (n : Nat) (l : List Byte) : Buffer n :=
  ⟨(l ++ List.replicate n 0).take n, by simp⟩

/-- `l` with the bytes from index `i` on replaced by `v`. -/
def splice (l : List Byte) (i : Nat) (v : List Byte) : List Byte :=
  l.take i ++ v ++ l.drop (i + v.length)

end Sys2Proof
end

