-- ==== Sys2Proof/Machine/Codec.lean ====
section
/-! DEFINITION. The codec as pure functions: checksum (spec/40_codec_checksum.md), length nibble and
frame shape (41), timecode (42), userbits and status (43). Each is one row of the table; the framer
steps and parser arms apply them. -/

namespace Sys2Proof.Codec

/-! ### Checksum -/

/-- `CKSUM(s) = sum(s) mod 256` (R90). -/
def cksum (s : List Byte) : Byte := BitVec.ofNat 8 (s.map BitVec.toNat).sum

/-- `STAMP(f)`: the last byte replaced by the checksum of the bytes before it (R91). -/
def stamp (f : List Byte) : List Byte := f.dropLast ++ [cksum f.dropLast]

/-- `VERIFY(h, d, c)` (R92). -/
def verify (h : Header) (d : List Byte) (c : Byte) : Bool := cksum (h.bytes ++ d) == c

/-! ### Length nibble and frame shape -/

/-- `LEN(b)` (R100). -/
def len (b : Byte) : Nat := lo b

/-- `FLEN(b)` (R101). -/
def flen (b : Byte) : Nat := hdrLen + len b + cksLen

/-- `WF(f)` (R102). -/
def wf (f : List Byte) : Bool := decide (3 ≤ f.length) && f.length == flen (f.getD 0 0)

/-- `WFS(f)` (R102). -/
def wfs (f : List Byte) : Bool := wf f && f.getLastD 0 == cksum f.dropLast

/-- `SPLIT(f)` (R103). -/
def split (f : List Byte) : Option (Header × List Byte × Byte) :=
  if wf f then some (Header.ofList f, (f.drop 2).dropLast, f.getLastD 0) else none

/-- `DIGIT(n)`, `0..9` then `A..F` (R106). -/
def hexDigit (n : Nat) : Char := if n < 10 then Char.ofNat (48 + n) else Char.ofNat (55 + n)

/-- `HEX2(b)` (R106). -/
def hex2 (b : Byte) : List Char := [hexDigit (hi b), hexDigit (lo b)]

/-- `HEXFMT(s)`: two upper-case digits a byte, single spaces between (R106). -/
def hexfmt : List Byte → List Char
  | [] => []
  | [b] => hex2 b
  | b :: c :: rest => hex2 b ++ ' ' :: hexfmt (c :: rest)

/-! ### Timecode -/

/-- `TCDEC(b) = 10*hi(b) + lo(b)`, total, 0..165 (R110). -/
def tcdec (b : Byte) : Nat := 10 * hi b + lo b

/-- Is `v` in TCENC's domain 0..159 (R111)? -/
def tcencDomain (v : Int) : Bool := decide (0 ≤ v) && decide (v ≤ 159)

/-- `TCENC(v)` on its domain: `16*floor(v/10) + (v mod 10)` (R111). -/
def tcenc (v : Nat) : Byte := nibbles (v / 10) (v % 10)

/-- `TC4DEC(d)`: byte order frames, seconds, minutes, hours (R112). -/
def tc4dec (d : Quad) : Timecode where
  frames := tcdec d.b0
  seconds := tcdec d.b1
  minutes := tcdec d.b2
  hours := tcdec d.b3

/-- Are all four fields in 0..159 (R113)? -/
def tc4encDomain (t : Timecode) : Bool :=
  decide (t.frames ≤ 159) && decide (t.seconds ≤ 159) && decide (t.minutes ≤ 159) && decide (t.hours ≤ 159)

/-- `TC4ENC(t)` on its domain (R113). -/
def tc4enc (t : Timecode) : Quad := ⟨tcenc t.frames, tcenc t.seconds, tcenc t.minutes, tcenc t.hours⟩

/-- `ISTC(h)` (R115). -/
def istc (P : Config) (h : Header) : Bool :=
  h == P.tcHdr.ltc.header || h == P.tcHdr.vtc.header || h == P.tcHdr.altLtc.header
    || h == P.tcHdr.timer1.header || h == P.tcHdr.timer2.header

/-! ### Userbits and status -/

/-- `UBDEC(d)`: the identity on four bytes (R120). -/
def ubdec (d : Quad) : UBGroup := d

/-- `UBPACK(u)`, local group first; defined only when both groups are present (R121). -/
def ubpack (u : Userbits) : Option (List Byte) :=
  match u.localGroup, u.verticalGroup with
  | some l, some v => some (l.bytes ++ v.bytes)
  | _, _ => none

/-- `ISUBL(h)` (R122). -/
def isubl (P : Config) (h : Header) : Bool := (P.ubLocalHdr.map Hdr4.header).contains h

/-- `ISUBV(h)` (R122). -/
def isubv (P : Config) (h : Header) : Bool := (P.ubVertHdr.map Hdr4.header).contains h

/-- `ISSTATUS(h)` (R123). -/
def isstatus (P : Config) (h : Header) : Bool := P.statusHdr.contains h

/-- `STDEC(h, d, g)`, uninterpreted (R124). -/
def stdec (h : Header) (d : List Byte) (g : VideoCommand) : RS422State := Config.decodeStatus h d g

/-! ### The host's command table -/

/-- `P.encode_cmd(c)`; `none` is the sentinel `UNDEFINED` (R168). -/
def encodeCmd (P : Config) (c : VideoCommand) : Option Frame := P.table.lookup c

end Sys2Proof.Codec
end

