-- ==== Sys2Proof/WellFormed.lean ====
section
/-! DEFINITION. Which configurations and which operations are well formed: the host's duty about the
command table, and the operand domains each operation's rule gives. -/

namespace Sys2Proof

/-- The HOST constraint on a configuration: the table's frames satisfy WF (R170 item 3). The constraints
of R8 hold by the type `Config`. -/
def Config.wellFormed (P : Config) : Bool := P.table.all fun e => Codec.wf e.2.bytes

/-- The class tests that come before ISUBL, ISUBV, ISSTATUS and the default arm (R152). -/
def noClassBefore (P : Config) (h : Header) (n : Nat) : Bool :=
  (n < 1 || !Codec.istc P h) && (n < 2 || !Codec.isubl P h) && (n < 3 || !Codec.isubv P h) && (n < 4 || !Codec.isstatus P h)

/-- Which causes an error kind carries (the column `cause` of R185). -/
def causeFits (k : ErrKind) (c : Option Cause) : Bool :=
  match k, c with
  | .ioFailure, some (.io _) => true
  | .ioFailure, _ => false
  | .missingData, c => c.isNone
  | .missingChecksum, c => c.isNone
  | .checksumMismatch, c => c.isNone
  | .interrupted, some (.io _) => false
  | .interrupted, _ => true

/-- Is the command one of the three the dispatcher expands (R166, R167)? -/
def isPseudo : VideoCommand → Bool
  | .requestUserbits => true
  | .requestTimestamp => true
  | .requestElapsedTime => true
  | _ => false

/-- A well-formed operation under a configuration: each operand in the domain its rule gives, and a
reply arm one that the classification of R152 would choose. -/
def Instr.wellFormed (P : Config) : Instr → Bool
  | .frame f _ => Codec.wf f.bytes
  | .accept => true
  | .send => true
  | .waitA => true
  | .rdhdr => true
  | .rddata => true
  | .waitB => true
  | .rdcks => true
  | .parse => true
  | .pVerify h d c => d.length == Codec.len h.cmd1 && !Codec.verify h d c
  | .pTcLtc _ => true
  | .pTcVtc _ => P.tcHdr.vtc.header != P.tcHdr.ltc.header
  | .pTcAltLtc _ => P.tcHdr.altLtc.header != P.tcHdr.ltc.header && P.tcHdr.altLtc.header != P.tcHdr.vtc.header
  | .pTcTimer1 _ => P.tcHdr.timer1.header != P.tcHdr.ltc.header && P.tcHdr.timer1.header != P.tcHdr.vtc.header
      && P.tcHdr.timer1.header != P.tcHdr.altLtc.header
  | .pTcTimer2 _ => P.tcHdr.timer2.header != P.tcHdr.ltc.header && P.tcHdr.timer2.header != P.tcHdr.vtc.header
      && P.tcHdr.timer2.header != P.tcHdr.altLtc.header && P.tcHdr.timer2.header != P.tcHdr.timer1.header
  | .pUbLocal h _ => Codec.isubl P h && noClassBefore P h 1
  | .pUbVert h _ => Codec.isubv P h && noClassBefore P h 2
  | .pStatus h d => d.length == Codec.len h.cmd1 && Codec.isstatus P h && noClassBefore P h 3
  | .pDrop h d => d.length == Codec.len h.cmd1 && noClassBefore P h 4
  | .cksum _ => true
  | .stamp _ _ => true
  | .verify _ d _ => decide (d.length ≤ maxData)
  | .len _ => true
  | .flen _ => true
  | .wf _ => true
  | .wfs _ => true
  | .split _ => true
  | .hexfmt _ => true
  | .tcdec _ => true
  | .tcenc v => Codec.tcencDomain v
  | .tc4dec _ => true
  | .tc4enc t => Codec.tc4encDomain t
  | .istc _ => true
  | .ubdec _ => true
  | .ubpack u => u.localGroup.isSome && u.verticalGroup.isSome
  | .isubl _ => true
  | .isubv _ => true
  | .isstatus _ => true
  | .stdec h d _ => d.length == Codec.len h.cmd1
  | .raise k c => causeFits k c
  | .requestUserbits => true
  | .requestTimestamp => true
  | .requestElapsedTime => true
  | .otherVideoCommand c => !isPseudo c

end Sys2Proof
end

