-- ==== Sys2Proof/Decode.lean ====
section
/-! DEFINITION. The decoder, total on any image and rejecting by name, and after it the encoder, both
written from spec/30_encoding.md and the column `encoding` of spec/opcode_table.json. -/

namespace Sys2Proof

/-- The arm a verified or unverified reply selects, in the order of R150 and R152: the checksum gate,
the five timecode headers, local userbits, vertical userbits, status, drop. -/
def replyInstr (P : Config) (h : Header) (d : List Byte) (c : Byte) : Instr :=
  if !Codec.verify h d c then .pVerify h d c
  else if h == P.tcHdr.ltc.header then .pTcLtc (Quad.ofList d)
  else if h == P.tcHdr.vtc.header then .pTcVtc (Quad.ofList d)
  else if h == P.tcHdr.altLtc.header then .pTcAltLtc (Quad.ofList d)
  else if h == P.tcHdr.timer1.header then .pTcTimer1 (Quad.ofList d)
  else if h == P.tcHdr.timer2.header then .pTcTimer2 (Quad.ofList d)
  else if Codec.isubl P h then .pUbLocal h (Quad.ofList d)
  else if Codec.isubv P h then .pUbVert h (Quad.ofList d)
  else if Codec.isstatus P h then .pStatus h d
  else .pDrop h d

/-- The framer step of a phase code (R21, R85): 0 IDLE/ACCEPT to 7 DECODE/PARSE. -/
def phaseInstr (code : Nat) : Except DecodeError Instr :=
  match code with
  | 0 => .ok .accept
  | 1 => .ok .send
  | 2 => .ok .waitA
  | 3 => .ok .rdhdr
  | 4 => .ok .rddata
  | 5 => .ok .waitB
  | 6 => .ok .rdcks
  | 7 => .ok .parse
  | _ => .error .phaseCode

/-- The kind an error label E1..E5 stands for (R185). -/
def kindOfLabel (label : Nat) : Except DecodeError ErrKind :=
  match label with
  | 1 => .ok .ioFailure
  | 2 => .ok .missingData
  | 3 => .ok .missingChecksum
  | 4 => .ok .checksumMismatch
  | 5 => .ok .interrupted
  | _ => .error .trapKind

/-- RAISE with an error label and a cause the kind carries (R185). -/
def trapInstr (label : Nat) (cause : Option Cause) : Except DecodeError Instr :=
  match kindOfLabel label with
  | .ok k => if causeFits k cause then .ok (.raise k cause) else .error .trapCause
  | .error e => .error e

/-- An operand of exactly one byte. -/
def oneByte (l : List Byte) (k : Byte → Instr) : Except DecodeError Instr :=
  match l with
  | [b] => .ok (k b)
  | _ => .error .operandLength

/-- An operand of exactly two bytes, a header. -/
def headerOperand (l : List Byte) (k : Header → Instr) : Except DecodeError Instr :=
  match l with
  | [a, b] => .ok (k ⟨a, b⟩)
  | _ => .error .operandLength

/-- An operand of exactly four bytes. -/
def quadOperand (l : List Byte) (k : Quad → Instr) : Except DecodeError Instr :=
  match l with
  | [a, b, c, d] => .ok (k ⟨a, b, c, d⟩)
  | _ => .error .operandLength

/-- TCENC's operand is written as its result byte `ttttuuuu` (opcode_table.json): a canonical one. -/
def tcencOperand (l : List Byte) : Except DecodeError Instr :=
  match l with
  | [b] => if lo b ≤ 9 then .ok (.tcenc (Codec.tcdec b)) else .error .notCanonical
  | _ => .error .operandLength

/-- TC4ENC's operand is written as its four result bytes, each canonical. -/
def tc4encOperand (l : List Byte) : Except DecodeError Instr :=
  match l with
  | [a, b, c, d] =>
    if lo a ≤ 9 ∧ lo b ≤ 9 ∧ lo c ≤ 9 ∧ lo d ≤ 9 then .ok (.tc4enc (Codec.tc4dec ⟨a, b, c, d⟩))
    else .error .notCanonical
  | _ => .error .operandLength

/-- UBPACK's operand: the local group, then the vertical group, both present. -/
def ubpackOperand (l : List Byte) : Except DecodeError Instr :=
  if l.length = 8 then .ok (.ubpack ⟨some (Quad.ofList l), some (Quad.ofList (l.drop 4))⟩)
  else .error .operandLength

/-- VERIFY's operand: the header, 0 to 15 data bytes, then the received checksum byte (R92). -/
def verifyOperand (l : List Byte) : Except DecodeError Instr :=
  if 3 ≤ l.length ∧ l.length ≤ 18 then
    .ok (.verify (Header.ofList l) (l.drop 2).dropLast (l.getLastD 0))
  else .error .operandLength

/-- STDEC's operand: the header, then exactly `LEN(CMD1)` data bytes (R124). -/
def stdecOperand (l : List Byte) (g : VideoCommand) : Except DecodeError Instr :=
  if 2 ≤ l.length ∧ l.length = 2 + Codec.len (l.getD 0 0) then
    .ok (.stdec (Header.ofList l) (l.drop 2) g)
  else .error .operandLength

/-- STAMP's operand: at least the checksum slot, which is the last byte (R91). -/
def stampOperand (l : List Byte) : Except DecodeError Instr :=
  if l.isEmpty then .error .operandLength else .ok (.stamp l.dropLast (l.getLastD 0))

/-- The codec function the caller names, with its operand assembled from the operand's bytes. -/
def fnInstr (n : FnName) (l : List Byte) : Except DecodeError Instr :=
  match n with
  | .cksum => .ok (.cksum l)
  | .stamp => stampOperand l
  | .verify => verifyOperand l
  | .len => oneByte l .len
  | .flen => oneByte l .flen
  | .wf => .ok (.wf l)
  | .wfs => .ok (.wfs l)
  | .split => .ok (.split l)
  | .hexfmt => .ok (.hexfmt l)
  | .tcdec => oneByte l .tcdec
  | .tcenc => tcencOperand l
  | .tc4dec => quadOperand l .tc4dec
  | .tc4enc => tc4encOperand l
  | .istc => headerOperand l .istc
  | .ubdec => quadOperand l .ubdec
  | .ubpack => ubpackOperand l
  | .isubl => headerOperand l .isubl
  | .isubv => headerOperand l .isubv
  | .isstatus => headerOperand l .isstatus
  | .stdec g => stdecOperand l g

/-- The dispatcher's three routing rules in order (R165 to R168). -/
def hostInstr (c : VideoCommand) : Instr :=
  match c with
  | .requestUserbits => .requestUserbits
  | .requestTimestamp => .requestTimestamp
  | .requestElapsedTime => .requestElapsedTime
  | c => .otherVideoCommand c

/-- A frame the host presents: 1 to 18 bytes (R41), `3 + N` of them (the FRAME row; R170 item 3). -/
def requestInstr (l : List Byte) (g : VideoCommand) : Except DecodeError Instr :=
  if h : 1 ≤ l.length ∧ l.length ≤ 18 then
    if Codec.wf l then .ok (.frame ⟨l, h.1, h.2⟩ g) else .error .requestShape
  else .error .requestLength

/-- The decoder. The reply headers are OPEN parameters, so it takes the configuration. -/
def decode (P : Config) (im : Image) : Except DecodeError Instr :=
  match im.sel with
  | .request g => requestInstr im.bytes g
  | .phase =>
    match im.bytes with
    | [b] => phaseInstr b.toNat
    | _ => .error .phaseCode
  | .reply =>
    match Codec.split im.bytes with
    | some (h, d, c) => .ok (replyInstr P h d c)
    | none => .error .replyShape
  | .fn n => fnInstr n im.bytes
  | .trap cause =>
    match im.bytes with
    | [b] => trapInstr b.toNat cause
    | _ => .error .trapKind
  | .host c => if im.bytes.isEmpty then .ok (hostInstr c) else .error .hostOperand

/-! ### The encoder -/

/-- The reply frame with header `h`, data `d` and its right checksum (R70). -/
def replyFrame (h : Header) (d : List Byte) : List Byte := h.bytes ++ d ++ [Codec.cksum (h.bytes ++ d)]

/-- The label of an error kind (R185). -/
def labelOfKind : ErrKind → Byte
  | .ioFailure => 1
  | .missingData => 2
  | .missingChecksum => 3
  | .checksumMismatch => 4
  | .interrupted => 5

/-- The image of an operation (for a well-formed one; TCENC and TC4ENC outside their domain have no
image and get that of their operand cut to it). -/
def encode (P : Config) (i : Instr) : Image :=
  match i with
  | .frame f g => ⟨.request g, f.bytes⟩
  | .accept => ⟨.phase, [0]⟩
  | .send => ⟨.phase, [1]⟩
  | .waitA => ⟨.phase, [2]⟩
  | .rdhdr => ⟨.phase, [3]⟩
  | .rddata => ⟨.phase, [4]⟩
  | .waitB => ⟨.phase, [5]⟩
  | .rdcks => ⟨.phase, [6]⟩
  | .parse => ⟨.phase, [7]⟩
  | .pVerify h d c => ⟨.reply, h.bytes ++ d ++ [c]⟩
  | .pTcLtc d => ⟨.reply, replyFrame P.tcHdr.ltc.header d.bytes⟩
  | .pTcVtc d => ⟨.reply, replyFrame P.tcHdr.vtc.header d.bytes⟩
  | .pTcAltLtc d => ⟨.reply, replyFrame P.tcHdr.altLtc.header d.bytes⟩
  | .pTcTimer1 d => ⟨.reply, replyFrame P.tcHdr.timer1.header d.bytes⟩
  | .pTcTimer2 d => ⟨.reply, replyFrame P.tcHdr.timer2.header d.bytes⟩
  | .pUbLocal h d => ⟨.reply, replyFrame h d.bytes⟩
  | .pUbVert h d => ⟨.reply, replyFrame h d.bytes⟩
  | .pStatus h d => ⟨.reply, replyFrame h d⟩
  | .pDrop h d => ⟨.reply, replyFrame h d⟩
  | .cksum s => ⟨.fn .cksum, s⟩
  | .stamp body slot => ⟨.fn .stamp, body ++ [slot]⟩
  | .verify h d c => ⟨.fn .verify, h.bytes ++ d ++ [c]⟩
  | .len b => ⟨.fn .len, [b]⟩
  | .flen b => ⟨.fn .flen, [b]⟩
  | .wf f => ⟨.fn .wf, f⟩
  | .wfs f => ⟨.fn .wfs, f⟩
  | .split f => ⟨.fn .split, f⟩
  | .hexfmt s => ⟨.fn .hexfmt, s⟩
  | .tcdec b => ⟨.fn .tcdec, [b]⟩
  | .tcenc v => ⟨.fn .tcenc, [Codec.tcenc v.toNat]⟩
  | .tc4dec d => ⟨.fn .tc4dec, d.bytes⟩
  | .tc4enc t => ⟨.fn .tc4enc, (Codec.tc4enc t).bytes⟩
  | .istc h => ⟨.fn .istc, h.bytes⟩
  | .ubdec d => ⟨.fn .ubdec, d.bytes⟩
  | .ubpack u => ⟨.fn .ubpack, (Codec.ubpack u).getD []⟩
  | .isubl h => ⟨.fn .isubl, h.bytes⟩
  | .isubv h => ⟨.fn .isubv, h.bytes⟩
  | .isstatus h => ⟨.fn .isstatus, h.bytes⟩
  | .stdec h d g => ⟨.fn (.stdec g), h.bytes ++ d⟩
  | .raise k cause => ⟨.trap cause, [labelOfKind k]⟩
  | .requestUserbits => ⟨.host .requestUserbits, []⟩
  | .requestTimestamp => ⟨.host .requestTimestamp, []⟩
  | .requestElapsedTime => ⟨.host .requestElapsedTime, []⟩
  | .otherVideoCommand c => ⟨.host c, []⟩

/-! ### Words as the opcode table numbers them -/

/-- The header of a 16-bit table word: CMD1 is bits 15:8, CMD2 bits 7:0 (`gggg0100cccccccc` read as one
number, as opcode_table.json numbers its fields). -/
def tableHeader (w : Nat) : Header := ⟨BitVec.ofNat 8 (w / 256), BitVec.ofNat 8 w⟩

/-- The reply whose header is the table word: `LEN(CMD1)` zero data bytes and the checksum of what
comes before (log 25). -/
def tableReply (w : Nat) : Image :=
  ⟨.reply, replyFrame (tableHeader w) (List.replicate (Codec.len (tableHeader w).cmd1) 0)⟩

/-- The operation the decoder reads from a table word: up to 8 bits a phase code, 16 bits a reply
header; the other rows have no opcode and are selected by no word (log 25). -/
def decodeTableWord (nbits w : Nat) : Option Instr :=
  if nbits ≤ 8 then (phaseInstr w).toOption
  else if nbits = 16 then (decode Config.supplied (tableReply w)).toOption
  else none

end Sys2Proof
end

