-- ==== Sys2Proof/Machine/State.lean ====
section
/-! DEFINITION. The state: every register, port and stream of spec/10_state.md, the host side's state
(spec/46_host_dispatcher_eventhub.md), and the model's own fields (INVENTORY.md, heading State). -/

namespace Sys2Proof.Machine

/-- Why the machine stops with a fault. -/
inductive Fault where
  /-- `memRead` or `memWrite` with an index outside its buffer (R51 requires `i + n` at most the
  length). Raised by SEND with TXLEN above 18 only, which no run reaches. Safe. -/
  | bufferRange
  deriving DecidableEq, Repr

/-- Why an operation gets no meaning. -/
inductive Refusal where
  /-- The operation has no meaning yet. Safe. -/
  | notModelled (mnemonic : String)
  /-- TCENC outside 0..159: "outside the domain, no source says what the byte is, and a model refuses
  them" (R111). Safe. -/
  | tcencDomain
  /-- TC4ENC with a field outside 0..159: "is refused as in rule R111" (R113). Safe. -/
  | tc4encDomain
  /-- UBPACK with an absent group: "the view is undefined and a model refuses it" (R121). Safe. -/
  | ubpackAbsent
  /-- PARSE with RXN different from LEN(RXHDR[0]): Parse is defined for `|d| = LEN(h[0])` only (R150).
  No run reaches it (log 17). Safe. -/
  | replyIncoherent
  /-- FRAME and a dispatched command whose frame is not of the form `3 + N` bytes: the host breaks a duty,
  "and a model should refuse the request" (R170 item 3, U4). Safe. -/
  | frameNotWellFormed
  /-- Step: the image to run next is no operation. A codec call with a malformed operand reaches it, and a
  presented frame that is not well formed. Safe. -/
  | undecodable (e : DecodeError)
  deriving DecidableEq, Repr

/-- The eight values of PHASE (R21). -/
inductive Phase where
  | idle
  | send
  | waitA
  | hdr
  | data
  | waitB
  | cks
  | decode
  deriving DecidableEq, Repr, Inhabited

/-- TMR has two values at transaction level (R28). -/
inductive Timer where
  | running
  | expired
  deriving DecidableEq, Repr, Inhabited

/-- RS422Error: the kind and the diagnostic fields (R39, R185). -/
structure ErrorRecord where
  kind : ErrKind
  cause : Option Cause
  header : Option Header
  data : Option (List Byte)
  checksum : Option Byte
  deriving DecidableEq, Repr

/-- Which userbits field a UB event is about (R40). -/
inductive UbChannel where
  | localCh
  | verticalCh
  deriving DecidableEq, Repr

/-- The events of the event port EVLOG (R40). -/
inductive Event where
  | tc (t : Timecode)
  | ub (which : UbChannel) (group : UBGroup) (cell : Userbits)
  | state (s : RS422State)
  | err (e : ErrorRecord)
  deriving DecidableEq, Repr

/-- A request as REQ carries it (R41). -/
structure Request where
  frame : Frame
  tag : VideoCommand
  deriving DecidableEq, Repr

/-- What the channel collaborator answers to one primitive: the oracle of R56. -/
inductive ChanAnswer where
  /-- The primitive succeeds. -/
  | ok
  /-- It fails; `moved` bytes (at most those asked for) were sent or lost all the same (R53, R56). -/
  | failed (cause : Cause) (moved : Nat)
  /-- It never answers: the block hangs in its phase (U17). -/
  | never
  deriving DecidableEq, Repr

/-- A line of the diagnostic log (R203). -/
inductive LogLine where
  | outbound (text : List Char) (command : VideoCommand)
  | inbound (text : List Char)
  | error (e : ErrorRecord)
  deriving DecidableEq, Repr

/-- What waits in the host's queue: a command to dispatch, or a frame that found
the block busy, REQ occupied or others waiting (log 19). -/
inductive HostItem where
  | command (c : VideoCommand)
  | request (r : Request)
  deriving DecidableEq, Repr

/-- VideoIndex (R173). -/
structure VideoIndex where
  timestamp : Option Instant
  timecode : Option Timecode
  deriving DecidableEq, Repr

/-- The Event Hub's streams: the entry point's own and five outputs (R171). -/
inductive StreamName where
  | commandsIn
  | state
  | timecode
  | userbits
  | errors
  | videoIndex
  deriving DecidableEq, Repr, Inhabited

/-- One subscriber of a stream: it sees what is published after the first `start` items (R172, log 29). -/
structure Subscription where
  stream : StreamName
  start : Nat
  deriving DecidableEq, Repr

/-- What a codec call answers its caller. -/
inductive CodecValue where
  | byte (b : Byte)
  | bytes (l : List Byte)
  | count (n : Nat)
  | truth (b : Bool)
  | parts (p : Option (Header × List Byte × Byte))
  | text (t : List Char)
  | timecode (t : Timecode)
  | group (q : UBGroup)
  | status (s : RS422State)
  deriving DecidableEq, Repr

/-- One agent's next move (log 1). -/
inductive Move where
  /-- FRAMER: the step PHASE selects. -/
  | framer
  /-- HOST: the Command Dispatcher takes the head of its queue. -/
  | dispatcher
  /-- HOST: the Event Hub consumes one event. -/
  | hub
  /-- DEVICE appends bytes to RXFIFO (R66). -/
  | device (bytes : List Byte)
  /-- HOST-CANCEL sets the INTR pending bit (R191). -/
  | cancel
  /-- CHANNEL-FAULT decides the answer of a later primitive (R56). -/
  | channel (a : ChanAnswer)
  /-- HOST: a caller submits a command (R169). -/
  | submit (c : VideoCommand)
  /-- HOST: a subscriber subscribes to a stream (R172). -/
  | subscribe (n : StreamName)
  /-- HOST-SUBMIT presents a frame at REQ (R41). -/
  | present (f : Frame) (g : VideoCommand)
  /-- The host calls a codec function on an operand's bytes. -/
  | codec (n : FnName) (operand : List Byte)
  deriving DecidableEq, Repr

/-- The state of the block, its channel and its host. -/
structure State where
  /-- The configuration, constant after construction (R8, R46). -/
  cfg : Config
  /-- PHASE (R21). -/
  phase : Phase
  /-- TXBUF, 18 bytes (R22). -/
  txbuf : Buffer 18
  /-- TXLEN, a 5-bit count (R22). -/
  txlen : BitVec 5
  /-- TAG (R23). -/
  tag : VideoCommand
  /-- RXHDR, 2 bytes (R24). -/
  rxhdr : Header
  /-- RXN, a 4-bit count (R25). -/
  rxn : BitVec 4
  /-- RXDATA, 15 bytes (R26). -/
  rxdata : Buffer 15
  /-- RXCKS (R27). -/
  rxcks : Byte
  /-- TMR (R28). -/
  tmr : Timer
  /-- CUR_TC (R32). -/
  curTc : Option Timecode
  /-- CUR_UB_LOCAL (R33). -/
  curUbLocal : Option UBGroup
  /-- CUR_UB_VERT (R33). -/
  curUbVert : Option UBGroup
  /-- CUR_STATE (R34). -/
  curState : Option RS422State
  /-- EVLOG (R40). -/
  evlog : List Event
  /-- REQ (R41). -/
  req : Option Request
  /-- The INTR pending bit (R43). -/
  intr : Bool
  /-- CANCEL_OUT: the pulses driven since reset (R43, log 11). -/
  cancelOut : Nat
  /-- TXSTREAM: every byte written, in order (R42). -/
  txstream : List Byte
  /-- RXFIFO: the bytes not yet read, oldest first (R42). -/
  rxfifo : List Byte
  /-- The diagnostic log (R203). -/
  log : List LogLine
  /-- HOST: the dispatcher's queue (R169). -/
  hostq : List HostItem
  /-- HOST: the commands-in stream (R171). -/
  commandsIn : List VideoCommand
  /-- HOST: `latest_tc` (R176). -/
  latestTc : Option Timecode
  /-- HOST: `latest_state` (R176). -/
  latestState : Option RS422State
  /-- HOST: `last_vi` (R176). -/
  lastVi : Option VideoIndex
  /-- HOST: the video-index stream (R171). -/
  viStream : List VideoIndex
  /-- HOST: the subscriptions held, oldest first (R172). -/
  subscriptions : List Subscription
  /-- Model's own: how many events of EVLOG the Event Hub has consumed (log 20). -/
  hubPos : Nat
  /-- Model's own: how many wall-clock values have been drawn (log 21). -/
  draws : Nat
  /-- Model's own: the answers of the next channel primitives; past its end they answer `ok` (log 6). -/
  chan : List ChanAnswer
  /-- Model's own: what the last codec call answered (log 13). -/
  result : Option CodecValue
  /-- Model's own: a lower bound, in ms, on the time the waits have taken (log 10). -/
  waitedMs : Nat
  /-- Model's own: the agents' next moves (log 1). -/
  schedule : List Move
  deriving DecidableEq, Repr

/-- The state after reset, which is construction (R46, R210). -/
def State.reset : State where
  cfg := Config.supplied
  phase := .idle
  txbuf := Buffer.ofList 18 []
  txlen := 0
  tag := .other 0
  rxhdr := ⟨0, 0⟩
  rxn := 0
  rxdata := Buffer.ofList 15 []
  rxcks := 0
  tmr := .expired
  curTc := none
  curUbLocal := none
  curUbVert := none
  curState := none
  evlog := []
  req := none
  intr := false
  cancelOut := 0
  txstream := []
  rxfifo := []
  log := []
  hostq := []
  commandsIn := []
  latestTc := none
  latestState := none
  lastVi := none
  viStream := []
  subscriptions := []
  hubPos := 0
  draws := 0
  chan := []
  result := none
  waitedMs := 0
  schedule := []

end Sys2Proof.Machine
end

