-- ==== Sys2Proof/Machine/Flags.lean ====
section
/-! DEFINITION. The one-bit views. The block has no status flags and no condition codes: no operation
writes one (spec/10_state.md R31). Its one-bit state is the present bit of each cell and the INTR
pending bit, a field of State; BUSY is an output computed from PHASE. -/

namespace Sys2Proof.Machine

/-- `BUSY = (PHASE != IDLE)` (R29). -/
def busy (s : State) : Bool := s.phase != .idle

/-- The present bit of CUR_TC (R31). -/
def tcPresent (s : State) : Bool := s.curTc.isSome

/-- The present bit of CUR_UB_LOCAL (R31). -/
def ubLocalPresent (s : State) : Bool := s.curUbLocal.isSome

/-- The present bit of CUR_UB_VERT (R31). -/
def ubVertPresent (s : State) : Bool := s.curUbVert.isSome

/-- The present bit of CUR_STATE (R31). -/
def statePresent (s : State) : Bool := s.curState.isSome

/-- The RS422Userbits value at any time (R37). -/
def userbits (s : State) : Userbits := ⟨s.curUbLocal, s.curUbVert⟩

/-- In flight, "sent but not yet fully answered" (R44). -/
def inFlight (s : State) : Bool := s.phase != .idle && s.phase != .send

/-- May the dispatcher present the next request: BUSY has fallen and REQ is empty (R168, R170)? -/
def ready (s : State) : Bool := !busy s && s.req.isNone

/-- The 3-bit code of a phase (R21, R85). -/
def phaseCode : Phase → Nat
  | .idle => 0
  | .send => 1
  | .waitA => 2
  | .hdr => 3
  | .data => 4
  | .waitB => 5
  | .cks => 6
  | .decode => 7

end Sys2Proof.Machine
end

