-- ==== Sys2Proof/Machine/Ops.lean ====
section
/-! DEFINITION. The named operations over the state: the buffer primitives (spec/20_memory.md R51), the
channel primitives (R53 to R56), the delay (spec/60_exceptions.md R197), `emit` (spec/10_state.md R40),
the log (R203), and `raise`, the block's taking of an exception (R193). -/

namespace Sys2Proof.Machine

/-- The outcome of an operation of this machine. -/
abbrev Result := Host.Outcome State Fault Refusal

/-! ### Single updates -/

/-- `PHASE <- p` (R11). -/
def State.setPhase (s : State) (p : Phase) : State := { s with phase := p }

/-- `emit e`: append exactly one event (R40). -/
def State.emit (s : State) (e : Event) : State := { s with evlog := s.evlog ++ [e] }

/-- Append a line to the diagnostic log when `P.DEBUG` is set (R203). -/
def State.debugLog (s : State) (l : LogLine) : State :=
  { s with log := if s.cfg.debug then s.log ++ [l] else s.log }

/-- Log a raised error; whether `P.DEBUG` gates it is not said (R193, R203, log 14). -/
def State.errorLog (s : State) (e : ErrorRecord) : State :=
  { s with log := if Config.errorLogGated && !s.cfg.debug then s.log else s.log ++ [.error e] }

/-- Observing the interruption clears the pending bit (R191). -/
def State.clearIntr (s : State) : State := { s with intr := false }

/-- Pulse CANCEL_OUT (R190). -/
def State.pulseCancel (s : State) : State := { s with cancelOut := s.cancelOut + 1 }

/-- Leave a codec function's value for its caller (log 13). -/
def State.answer (s : State) (v : CodecValue) : State := { s with result := some v }

/-! ### Frame buffers -/

/-- The four frame buffers (R50). -/
inductive BufName where
  | txbuf
  | rxhdr
  | rxdata
  | rxcks
  deriving DecidableEq, Repr

/-- A buffer's contents, index 0 first. -/
def bufBytes (s : State) (b : BufName) : List Byte :=
  match b with
  | .txbuf => s.txbuf.bytes
  | .rxhdr => s.rxhdr.bytes
  | .rxdata => s.rxdata.bytes
  | .rxcks => [s.rxcks]

/-- The state with a buffer's contents replaced. -/
def setBuf (s : State) (b : BufName) (l : List Byte) : State :=
  match b with
  | .txbuf => { s with txbuf := Buffer.ofList 18 l }
  | .rxhdr => { s with rxhdr := Header.ofList l }
  | .rxdata => { s with rxdata := Buffer.ofList 15 l }
  | .rxcks => { s with rxcks := l.getD 0 0 }

/-- `MemRead(buf, i, n)` (R51); `none` outside the buffer. -/
def memRead (s : State) (b : BufName) (i n : Nat) : Option (List Byte) :=
  if i + n ≤ (bufBytes s b).length then some (((bufBytes s b).drop i).take n) else none

/-- `MemWrite(buf, i, |v|, v)` (R51); `none` outside the buffer. -/
def memWrite (s : State) (b : BufName) (i : Nat) (v : List Byte) : Option State :=
  if i + v.length ≤ (bufBytes s b).length then some (setBuf s b (splice (bufBytes s b) i v)) else none

/-- Go on with a buffer access, or stop with `bufferRange`. -/
def withBuf {α : Type} (o : Option α) (k : α → Result) : Result :=
  match o with
  | some a => k a
  | none => .fault .bufferRange

/-! ### Taking an exception -/

/-- The error record of a kind: the fields of R185, read from the inbound frame registers. -/
def errorRecord (s : State) (k : ErrKind) (cause : Option Cause) : ErrorRecord :=
  let data := s.rxdata.bytes.take s.rxn.toNat
  match k with
  | .ioFailure => ⟨k, cause, none, none, none⟩
  | .missingData => ⟨k, cause, some s.rxhdr, none, none⟩
  | .missingChecksum => ⟨k, cause, some s.rxhdr, some data, none⟩
  | .checksumMismatch => ⟨k, cause, some s.rxhdr, some data, some s.rxcks⟩
  | .interrupted => ⟨k, cause, none, none, none⟩

/-- `raise K(info)`, the block's trap entry (R193): emit one ERR, pulse CANCEL_OUT if the kind is
Interrupted, log the error, `PHASE <- IDLE`. Nothing is saved; there is no handler and no return
(R194). -/
def raiseError (s : State) (k : ErrKind) (cause : Option Cause) : State :=
  let e := errorRecord s k cause
  let s1 := s.emit (.err e)
  let s2 := if k = .interrupted then s1.pulseCancel else s1
  (s2.errorLog e).setPhase .idle

/-! ### The channel -/

/-- What a channel primitive answers the block. -/
inductive ChanResult (α : Type) where
  | ok (v : α) (s : State)
  | failed (c : Cause) (s : State)
  | never

/-- `ChanWrite(f)` (R53): all of `f` on `ok`, any prefix on `failed`. -/
def chanWrite (s : State) (f : List Byte) : ChanResult Unit :=
  match s.chan with
  | [] => .ok () { s with txstream := s.txstream ++ f }
  | .ok :: r => .ok () { s with chan := r, txstream := s.txstream ++ f }
  | .failed c k :: r => .failed c { s with chan := r, txstream := s.txstream ++ f.take k }
  | .never :: _ => .never

/-- `ChanAvail()` (R54): the number of bytes that can be read now; removes nothing. -/
def chanAvail (s : State) : ChanResult Nat :=
  match s.chan with
  | [] => .ok s.rxfifo.length s
  | .ok :: r => .ok s.rxfifo.length { s with chan := r }
  | .failed c _ :: r => .failed c { s with chan := r }
  | .never :: _ => .never

/-- `ChanRead(n)` (R55): the first `n` bytes of RXFIFO, removed; on `failed`, 0 to `n` bytes are lost.
With fewer than `n` available the read blocks (log 23); the block never calls it so. -/
def chanRead (s : State) (n : Nat) : ChanResult (List Byte) :=
  match s.chan with
  | [] => if n ≤ s.rxfifo.length then .ok (s.rxfifo.take n) { s with rxfifo := s.rxfifo.drop n } else .never
  | .ok :: r =>
    if n ≤ s.rxfifo.length then .ok (s.rxfifo.take n) { s with chan := r, rxfifo := s.rxfifo.drop n } else .never
  | .failed c k :: r => .failed c { s with chan := r, rxfifo := s.rxfifo.drop (min k n) }
  | .never :: _ => .never

/-- What a step does when a primitive answers `failed(cause)` (R56): Interrupted for the interruption,
which is thereby observed (R191), else IOFailure, with INTR left as it is (R192). -/
def channelFailed (c : Cause) (s : State) : State :=
  match c with
  | .interruption _ => raiseError s.clearIntr .interrupted (some c)
  | .io _ => raiseError s .ioFailure (some c)

/-- Go on with a primitive's answer in state `s`. A failure raises; a primitive that never answers
leaves the block where it was, in its phase (U17). -/
def withChan {α : Type} (s : State) (r : ChanResult α) (k : α → State → Result) : Result :=
  match r with
  | .ok v s' => k v s'
  | .failed c s' => .next (channelFailed c s')
  | .never => .next s

/-! ### The delay -/

/-- What `Wait(d)` answers. -/
inductive WaitResult where
  | ok (s : State)
  | interrupted (s : State)

/-- `Wait(P.DELAY)` (R197): interrupted when INTR is pending, which clears it (R191); else TMR runs and
expires, and at least `P.DELAY` ms have passed. TMR is not running outside the wait. -/
def wait (s : State) : WaitResult :=
  if s.intr then .interrupted { s.clearIntr with tmr := .expired }
  else .ok { s with tmr := .expired, waitedMs := s.waitedMs + s.cfg.delay }

end Sys2Proof.Machine
end

