-- ==== Sys2Proof/Machine/CodecCalls.lean ====
section
/-! DEFINITION. The twenty codec functions as operations: each is pure, leaves its value for its caller
(log 13) and touches no register (spec/40 to spec/43). -/

namespace Sys2Proof.Machine

/-- CKSUM (R90). -/
def execCksum (l : List Byte) (s : State) : Result := .next (s.answer (.byte (Codec.cksum l)))

/-- STAMP (R91): the frame is `body ++ [slot]`; `slot` is overwritten. -/
def execStamp (body : List Byte) (slot : Byte) (s : State) : Result :=
  .next (s.answer (.bytes (Codec.stamp (body ++ [slot]))))

/-- VERIFY (R92). -/
def execVerify (h : Header) (d : List Byte) (c : Byte) (s : State) : Result :=
  .next (s.answer (.truth (Codec.verify h d c)))

/-- LEN (R100). -/
def execLen (b : Byte) (s : State) : Result := .next (s.answer (.count (Codec.len b)))

/-- FLEN (R101). -/
def execFlen (b : Byte) (s : State) : Result := .next (s.answer (.count (Codec.flen b)))

/-- WF (R102). -/
def execWf (f : List Byte) (s : State) : Result := .next (s.answer (.truth (Codec.wf f)))

/-- WFS (R102). -/
def execWfs (f : List Byte) (s : State) : Result := .next (s.answer (.truth (Codec.wfs f)))

/-- SPLIT (R103). -/
def execSplit (f : List Byte) (s : State) : Result := .next (s.answer (.parts (Codec.split f)))

/-- HEXFMT (R106). -/
def execHexfmt (l : List Byte) (s : State) : Result := .next (s.answer (.text (Codec.hexfmt l)))

/-- TCDEC (R110). -/
def execTcdec (b : Byte) (s : State) : Result := .next (s.answer (.count (Codec.tcdec b)))

/-- TCENC (R111): refused outside 0..159, as the rule says. -/
def execTcenc (v : Int) (s : State) : Result :=
  if Codec.tcencDomain v then .next (s.answer (.byte (Codec.tcenc v.toNat))) else .refused .tcencDomain

/-- TC4DEC (R112). -/
def execTc4dec (d : Quad) (s : State) : Result := .next (s.answer (.timecode (Codec.tc4dec d)))

/-- TC4ENC (R113): a field outside 0..159 is refused, as the rule says. -/
def execTc4enc (t : Timecode) (s : State) : Result :=
  if Codec.tc4encDomain t then .next (s.answer (.bytes (Codec.tc4enc t).bytes)) else .refused .tc4encDomain

/-- ISTC (R115). -/
def execIstc (h : Header) (s : State) : Result := .next (s.answer (.truth (Codec.istc s.cfg h)))

/-- UBDEC (R120). -/
def execUbdec (d : Quad) (s : State) : Result := .next (s.answer (.group (Codec.ubdec d)))

/-- UBPACK (R121): refused when a group is absent, as the rule says. -/
def execUbpack (u : Userbits) (s : State) : Result :=
  match Codec.ubpack u with
  | some l => .next (s.answer (.bytes l))
  | none => .refused .ubpackAbsent

/-- ISUBL (R122). -/
def execIsubl (h : Header) (s : State) : Result := .next (s.answer (.truth (Codec.isubl s.cfg h)))

/-- ISUBV (R122). -/
def execIsubv (h : Header) (s : State) : Result := .next (s.answer (.truth (Codec.isubv s.cfg h)))

/-- ISSTATUS (R123). -/
def execIsstatus (h : Header) (s : State) : Result := .next (s.answer (.truth (Codec.isstatus s.cfg h)))

/-- STDEC (R124). -/
def execStdec (h : Header) (d : List Byte) (g : VideoCommand) (s : State) : Result :=
  .next (s.answer (.status (Codec.stdec h d g)))

end Sys2Proof.Machine
end

