-- ==== Sys2Proof/Machine/Parser.lean ====
section
/-! DEFINITION. The response parser: its arms as state updates, the parser that chooses one
(spec/45_response_parser.md R150), and each arm as an operation of the table (R151 to R157). -/

namespace Sys2Proof.Machine

/-! ### The arms as updates -/

/-- P_VERIFY: on a mismatch one ERR(ChecksumMismatch) with the reply's header, data and checksum; no
cell is written (R151). The pseudocode of R151 emits and does not log (log 14). -/
def gateArm (s : State) (h : Header) (d : List Byte) (c : Byte) : State :=
  if Codec.verify h d c then s else s.emit (.err ⟨.checksumMismatch, none, some h, some d, some c⟩)

/-- P_TC (R153): one arm for all five headers. -/
def tcArm (s : State) (d : Quad) : State :=
  { s with curTc := some (Codec.tc4dec d) }.emit (.tc (Codec.tc4dec d))

/-- P_UB_LOCAL (R154): CUR_UB_VERT is read, not written. -/
def ubLocalArm (s : State) (d : Quad) : State :=
  { s with curUbLocal := some (Codec.ubdec d) }.emit
    (.ub .localCh (Codec.ubdec d) ⟨some (Codec.ubdec d), s.curUbVert⟩)

/-- P_UB_VERT (R155): CUR_UB_LOCAL is read, not written. -/
def ubVertArm (s : State) (d : Quad) : State :=
  { s with curUbVert := some (Codec.ubdec d) }.emit
    (.ub .verticalCh (Codec.ubdec d) ⟨s.curUbLocal, some (Codec.ubdec d)⟩)

/-- P_STATUS (R156). -/
def statusArm (s : State) (h : Header) (d : List Byte) (g : VideoCommand) : State :=
  { s with curState := some (Codec.stdec h d g) }.emit (.state (Codec.stdec h d g))

/-- P_DROP: nothing (R157). -/
def dropArm (s : State) : State := s

/-- `Parse(h, d, c, g)` (R150): the checksum gate, then the classes in the order of R152. -/
def parseReply (s : State) (h : Header) (d : List Byte) (c : Byte) (g : VideoCommand) : State :=
  if !Codec.verify h d c then gateArm s h d c
  else if Codec.istc s.cfg h then tcArm s (Quad.ofList d)
  else if Codec.isubl s.cfg h then ubLocalArm s (Quad.ofList d)
  else if Codec.isubv s.cfg h then ubVertArm s (Quad.ofList d)
  else if Codec.isstatus s.cfg h then statusArm s h d g
  else dropArm s

/-! ### The arms as operations -/

/-- P_VERIFY (R151). -/
def execPVerify (h : Header) (d : List Byte) (c : Byte) (s : State) : Result := .next (gateArm s h d c)

/-- P_TC.LTC (R153). -/
def execPTcLtc (d : Quad) (s : State) : Result := .next (tcArm s d)

/-- P_TC.VTC (R153). -/
def execPTcVtc (d : Quad) (s : State) : Result := .next (tcArm s d)

/-- P_TC.ALT_LTC (R153). -/
def execPTcAltLtc (d : Quad) (s : State) : Result := .next (tcArm s d)

/-- P_TC.TIMER1 (R153). -/
def execPTcTimer1 (d : Quad) (s : State) : Result := .next (tcArm s d)

/-- P_TC.TIMER2 (R153). -/
def execPTcTimer2 (d : Quad) (s : State) : Result := .next (tcArm s d)

/-- P_UB_LOCAL (R154); the header selected the arm and is read no further. -/
def execPUbLocal (_h : Header) (d : Quad) (s : State) : Result := .next (ubLocalArm s d)

/-- P_UB_VERT (R155). -/
def execPUbVert (_h : Header) (d : Quad) (s : State) : Result := .next (ubVertArm s d)

/-- P_STATUS (R156): the tag is TAG, which PARSE hands to the parser (R138). -/
def execPStatus (h : Header) (d : List Byte) (s : State) : Result := .next (statusArm s h d s.tag)

/-- P_DROP (R157). -/
def execPDrop (_h : Header) (_d : List Byte) (s : State) : Result := .next (dropArm s)

end Sys2Proof.Machine
end

