-- ==== Sys2Proof/Machine/Framer.lean ====
section
/-! DEFINITION. The framer: the frame the host presents, and the eight steps of one send/receive cycle
(spec/44_framer_cycle.md R131 to R138). -/

namespace Sys2Proof.Machine

/-- FRAME: the host presents `(f, g)` at REQ (log 3). A request that finds the block busy, REQ occupied or
others waiting joins the end of the host's queue, so requests reach REQ one at a time and in arrival order
(R68, R170 items 1 and 2; that the wait is in this queue is log 19). A frame that is not well formed breaks
the host's duty and is refused (R170 item 3, log 15); the block itself checks nothing (R102). -/
def execFrame (f : Frame) (g : VideoCommand) (s : State) : Result :=
  if !Codec.wf f.bytes then .refused .frameNotWellFormed
  else if ready s && s.hostq.isEmpty then .next { s with req := some ⟨f, g⟩ }
  else .next { s with hostq := s.hostq ++ [.request ⟨f, g⟩] }

/-- ACCEPT (R131). -/
def execAccept (s : State) : Result :=
  match s.req with
  | none => .next (s.setPhase .idle)
  | some r =>
    withBuf (memWrite s .txbuf 0 (Codec.stamp r.frame.bytes)) fun s1 =>
      .next { s1 with txlen := BitVec.ofNat 5 r.frame.bytes.length, tag := r.tag, req := none, phase := .send }

/-- SEND (R132). -/
def execSend (s : State) : Result :=
  withBuf (memRead s .txbuf 0 s.txlen.toNat) fun f =>
    withChan s (chanWrite s f) fun _ s1 =>
      .next ((s1.debugLog (.outbound (Codec.hexfmt f) s1.tag)).setPhase .waitA)

/-- WAIT_A (R133). -/
def execWaitA (s : State) : Result :=
  match wait s with
  | .ok s1 => .next (s1.setPhase .hdr)
  | .interrupted s1 => .next (raiseError s1 .interrupted none)

/-- RDHDR (R134): fewer than 2 bytes available is no response, no event and no error. -/
def execRdhdr (s : State) : Result :=
  withChan s (chanAvail s) fun a s1 =>
    if 2 ≤ a then
      withChan s (chanRead s1 2) fun v s2 =>
        withBuf (memWrite s2 .rxhdr 0 v) fun s3 =>
          .next { s3 with
            rxn := BitVec.ofNat 4 (Codec.len (v.getD 0 0))
            phase := if 0 < Codec.len (v.getD 0 0) then .data else .waitB }
    else .next (s1.setPhase .idle)

/-- RDDATA (R135): with fewer than RXN bytes available none is consumed. -/
def execRddata (s : State) : Result :=
  withChan s (chanAvail s) fun a s1 =>
    if s.rxn.toNat ≤ a then
      withChan s (chanRead s1 s.rxn.toNat) fun v s2 =>
        withBuf (memWrite s2 .rxdata 0 v) fun s3 => .next (s3.setPhase .waitB)
    else .next (raiseError s1 .missingData none)

/-- WAIT_B (R136). -/
def execWaitB (s : State) : Result :=
  match wait s with
  | .ok s1 => .next (s1.setPhase .cks)
  | .interrupted s1 => .next (raiseError s1 .interrupted none)

/-- RDCKS (R137). -/
def execRdcks (s : State) : Result :=
  withChan s (chanAvail s) fun a s1 =>
    if 1 ≤ a then
      withChan s (chanRead s1 1) fun v s2 => .next { s2 with rxcks := v.getD 0 0, phase := .decode }
    else .next (raiseError s1 .missingChecksum none)

/-- PARSE (R138): log the reply, hand it to the parser, `PHASE <- IDLE`. -/
def execParse (s : State) : Result :=
  withBuf (memRead s .rxhdr 0 2) fun hb =>
    withBuf (memRead s .rxdata 0 s.rxn.toNat) fun d =>
      if d.length = Codec.len (Header.ofList hb).cmd1 then
        .next ((parseReply (s.debugLog (.inbound (Codec.hexfmt (hb ++ d ++ [s.rxcks])))) (Header.ofList hb) d s.rxcks
          s.tag).setPhase .idle)
      else .refused .replyIncoherent

end Sys2Proof.Machine
end

