-- ==== Sys2Proof/Machine/Streams.lean ====
section
/-! DEFINITION. The Event Hub's streams as projections (spec/10_state.md R40,
spec/46_host_dispatcher_eventhub.md R171), subscribing, and what a subscriber sees (R172). -/

namespace Sys2Proof.Machine

/-! ### The projections of EVLOG -/

/-- The timecode stream. -/
def timecodeStream (l : List Event) : List Timecode :=
  l.filterMap fun e => match e with
    | .tc t => some t
    | .ub _ _ _ => none
    | .state _ => none
    | .err _ => none

/-- The state stream. -/
def stateStream (l : List Event) : List RS422State :=
  l.filterMap fun e => match e with
    | .state st => some st
    | .tc _ => none
    | .ub _ _ _ => none
    | .err _ => none

/-- What a UB event publishes: which field, the group, and the RS422Userbits value (R40). -/
structure UserbitsUpdate where
  which : UbChannel
  group : UBGroup
  cell : Userbits
  deriving DecidableEq, Repr

/-- The userbits stream: the UB events of both channels in their common order. -/
def userbitsStream (l : List Event) : List UserbitsUpdate :=
  l.filterMap fun e => match e with
    | .ub which g c => some ⟨which, g, c⟩
    | .tc _ => none
    | .state _ => none
    | .err _ => none

/-- The groups of the userbits stream for one channel. -/
def userbitsGroups (l : List Event) (ch : UbChannel) : List UBGroup :=
  (userbitsStream l).filterMap fun u => if u.which = ch then some u.group else none

/-- The error stream. -/
def errorStream (l : List Event) : List ErrorRecord :=
  l.filterMap fun e => match e with
    | .err r => some r
    | .tc _ => none
    | .ub _ _ _ => none
    | .state _ => none

/-! ### The six streams and their subscribers -/

/-- One published item of any stream. -/
inductive StreamItem where
  | command (c : VideoCommand)
  | state (st : RS422State)
  | timecode (t : Timecode)
  | userbits (u : UserbitsUpdate)
  | error (e : ErrorRecord)
  | videoIndex (v : VideoIndex)
  deriving DecidableEq, Repr

/-- Everything a stream has published, oldest first (R171). -/
def streamItems (s : State) (n : StreamName) : List StreamItem :=
  match n with
  | .commandsIn => s.commandsIn.map .command
  | .state => (stateStream s.evlog).map .state
  | .timecode => (timecodeStream s.evlog).map .timecode
  | .userbits => (userbitsStream s.evlog).map .userbits
  | .errors => (errorStream s.evlog).map .error
  | .videoIndex => s.viStream.map .videoIndex

/-- What a subscriber has been shown: nothing published before it subscribed, and everything since, in
order (R172: multicast and replay-free). -/
def subscriberView (s : State) (u : Subscription) : List StreamItem := (streamItems s u.stream).drop u.start

/-- A subscriber subscribes: from here on it sees what the stream publishes (R172). -/
def subscribe (s : State) (n : StreamName) : State :=
  { s with subscriptions := s.subscriptions ++ [⟨n, (streamItems s n).length⟩] }

end Sys2Proof.Machine
end

