-- ==== Sys2Proof/Machine/HostCommands.lean ====
section
/-! DEFINITION. HOST: the Command Dispatcher's routing rules and the Event Hub's video index
(spec/46_host_dispatcher_eventhub.md R165 to R178). -/

namespace Sys2Proof.Machine

/-! ### The Event Hub -/

/-- The video-index value of R176, and how many wall-clock values it draws: an absent state counts as
not recording. -/
def videoIndexNow (s : State) : VideoIndex × Nat :=
  match s.latestState with
  | some st =>
    if Config.isRecording st then (⟨some (Config.now s.draws), s.latestTc⟩, s.draws + 1) else (⟨none, s.latestTc⟩, s.draws)
  | none => (⟨none, s.latestTc⟩, s.draws)

/-- `recompute` (R176): publish the value if it differs from the last one published (R177). -/
def recompute (s : State) : State :=
  let v := videoIndexNow s
  if s.lastVi = some v.1 then { s with draws := v.2 }
  else { s with draws := v.2, viStream := s.viStream ++ [v.1], lastVi := some v.1 }

/-- The Event Hub takes one event: TC and STATE update its latest values and recompute (R176). -/
def hubEvent (s : State) (e : Event) : State :=
  match e with
  | .tc t => recompute { s with latestTc := some t }
  | .state st => recompute { s with latestState := some st }
  | .ub _ _ _ => s
  | .err _ => s

/-- The Event Hub consumes the next event of EVLOG, if there is one, in order (R172). -/
def hubStep (s : State) : State :=
  match s.evlog[s.hubPos]? with
  | some e => hubEvent { s with hubPos := s.hubPos + 1 } e
  | none => s

/-- A no-op command publishes `{timestamp = some now(), timecode = absent}` whatever the state (R178);
whether that becomes `last_vi` is not said (log 20). -/
def publishNoop (s : State) : State :=
  let v : VideoIndex := ⟨some (Config.now s.draws), none⟩
  { s with
    draws := s.draws + 1
    viStream := s.viStream ++ [v]
    lastVi := if Config.noopSetsLastVi then some v else s.lastVi }

/-! ### The dispatcher's rows -/

/-- request userbits (R166): two commands, local then vertical, dispatched before what waits. -/
def execRequestUserbits (s : State) : Result :=
  .next { s with hostq := .command .requestLocalUserbits :: .command .requestVerticalUserbits :: s.hostq }

/-- request timestamp (R167): no frame; the video-index stream receives a value. -/
def execRequestTimestamp (s : State) : Result := .next (publishNoop s)

/-- request elapsed time (R167, R178): the value of request timestamp. What it computes beyond that value is
not said (N14); that it computes nothing more is the model's choice (log 30). -/
def execRequestElapsedTime (s : State) : Result := .next (publishNoop s)

/-- Any other command (R168): UNDEFINED is silently dropped; else its frame is presented at REQ. While the
block is busy or REQ is occupied the command, which was the first in the queue, stays the first (R169,
R170 item 1, log 19). A table that holds a frame that is not well formed breaks the host's duty, and the
request is refused (R170 item 3, log 15). -/
def execOtherVideoCommand (c : VideoCommand) (s : State) : Result :=
  match Codec.encodeCmd s.cfg c with
  | none => .next s
  | some f =>
    if !Codec.wf f.bytes then .refused .frameNotWellFormed
    else if ready s then .next { s with req := some ⟨f, c⟩ }
    else .next { s with hostq := .command c :: s.hostq }

/-- A caller submits a command: it joins the queue and the commands-in stream (R169, R171). -/
def submitCommand (s : State) (c : VideoCommand) : State :=
  { s with hostq := s.hostq ++ [.command c], commandsIn := s.commandsIn ++ [c] }

end Sys2Proof.Machine
end

