-- ==== Sys2Proof/Machine/Trap.lean ====
section
/-! DEFINITION. RAISE, the common tail of every failing step (spec/60_exceptions.md R193). There is no
return from an exception: after it the block is in IDLE (R194). -/

namespace Sys2Proof.Machine

/-- RAISE (R193), with the diagnostic fields R185 gives the kind (log 27). -/
def execRaise (k : ErrKind) (cause : Option Cause) (s : State) : Result := .next (raiseError s k cause)

end Sys2Proof.Machine
end

