-- ==== Sys2Proof/Machine/Dispatch.lean ====
section
/-! DEFINITION. The meaning of an operation: one arm per row of spec/opcode_table.json. -/

namespace Sys2Proof.Machine

def exec (i : Instr) (s : State) : Host.Outcome State Fault Refusal :=
  match i with
  | .frame f g => Sys2Proof.Machine.execFrame f g s
  -- the framer steps
  | .accept => Sys2Proof.Machine.execAccept s
  | .send => Sys2Proof.Machine.execSend s
  | .waitA => Sys2Proof.Machine.execWaitA s
  | .rdhdr => Sys2Proof.Machine.execRdhdr s
  | .rddata => Sys2Proof.Machine.execRddata s
  | .waitB => Sys2Proof.Machine.execWaitB s
  | .rdcks => Sys2Proof.Machine.execRdcks s
  | .parse => Sys2Proof.Machine.execParse s
  -- the parser arms
  | .pVerify h d c => Sys2Proof.Machine.execPVerify h d c s
  | .pTcLtc d => Sys2Proof.Machine.execPTcLtc d s
  | .pTcVtc d => Sys2Proof.Machine.execPTcVtc d s
  | .pTcAltLtc d => Sys2Proof.Machine.execPTcAltLtc d s
  | .pTcTimer1 d => Sys2Proof.Machine.execPTcTimer1 d s
  | .pTcTimer2 d => Sys2Proof.Machine.execPTcTimer2 d s
  | .pUbLocal h d => Sys2Proof.Machine.execPUbLocal h d s
  | .pUbVert h d => Sys2Proof.Machine.execPUbVert h d s
  | .pStatus h d => Sys2Proof.Machine.execPStatus h d s
  | .pDrop h d => Sys2Proof.Machine.execPDrop h d s
  -- the codec functions
  | .cksum l => Sys2Proof.Machine.execCksum l s
  | .stamp body slot => Sys2Proof.Machine.execStamp body slot s
  | .verify h d c => Sys2Proof.Machine.execVerify h d c s
  | .len b => Sys2Proof.Machine.execLen b s
  | .flen b => Sys2Proof.Machine.execFlen b s
  | .wf f => Sys2Proof.Machine.execWf f s
  | .wfs f => Sys2Proof.Machine.execWfs f s
  | .split f => Sys2Proof.Machine.execSplit f s
  | .hexfmt l => Sys2Proof.Machine.execHexfmt l s
  | .tcdec b => Sys2Proof.Machine.execTcdec b s
  | .tcenc v => Sys2Proof.Machine.execTcenc v s
  | .tc4dec d => Sys2Proof.Machine.execTc4dec d s
  | .tc4enc t => Sys2Proof.Machine.execTc4enc t s
  | .istc h => Sys2Proof.Machine.execIstc h s
  | .ubdec d => Sys2Proof.Machine.execUbdec d s
  | .ubpack u => Sys2Proof.Machine.execUbpack u s
  | .isubl h => Sys2Proof.Machine.execIsubl h s
  | .isubv h => Sys2Proof.Machine.execIsubv h s
  | .isstatus h => Sys2Proof.Machine.execIsstatus h s
  | .stdec h d g => Sys2Proof.Machine.execStdec h d g s
  -- the trap entry
  | .raise k cause => Sys2Proof.Machine.execRaise k cause s
  -- the host's commands
  | .requestUserbits => Sys2Proof.Machine.execRequestUserbits s
  | .requestTimestamp => Sys2Proof.Machine.execRequestTimestamp s
  | .requestElapsedTime => Sys2Proof.Machine.execRequestElapsedTime s
  | .otherVideoCommand c => Sys2Proof.Machine.execOtherVideoCommand c s

end Sys2Proof.Machine
end

