-- ==== Sys2Proof/Machine/Fetch.lean ====
section
/-! DEFINITION. Which agent moves next and what it runs (spec/00_scope.md R7, log 1): the head of
`schedule`; past its end the block first, then the Event Hub, then the dispatcher. -/

namespace Sys2Proof.Machine

/-- What the next move is: an operation to decode and run, or a move that is done. -/
inductive Fetched where
  | run (im : Image) (s : State)
  | moved (s : State)
  deriving DecidableEq, Repr

/-- The framer fetches through PHASE: the image is the 3-bit code (R21, R85). -/
def phaseImage (p : Phase) : Image := ⟨.phase, [BitVec.ofNat 8 (phaseCode p)]⟩

/-- The dispatcher takes the head of its queue when BUSY has fallen and REQ is empty, strictly one at a
time (R168, R169): a command is decoded and run, a waiting request, checked when it arrived, goes to REQ.
Else the dispatcher has no step. -/
def dispatcherFetch (s : State) : Fetched :=
  if ready s then
    match s.hostq with
    | .command c :: q => .run ⟨.host c, []⟩ { s with hostq := q }
    | .request r :: q => .moved { s with req := some r, hostq := q }
    | [] => .moved s
  else .moved s

/-- Past the schedule's end: the framer while a cycle runs or a request is presented; then the Event
Hub while it is behind; then the dispatcher; then the framer, which stays in IDLE (log 1). -/
def defaultFetch (s : State) : Fetched :=
  if !ready s then .run (phaseImage s.phase) s
  else if s.hubPos < s.evlog.length then .moved (hubStep s)
  else if !s.hostq.isEmpty then dispatcherFetch s
  else .run (phaseImage s.phase) s

/-- One agent's move. -/
def fetchMove (s : State) (m : Move) : Fetched :=
  match m with
  | .framer => .run (phaseImage s.phase) s
  | .dispatcher => dispatcherFetch s
  | .hub => .moved (hubStep s)
  | .device bytes => .moved { s with rxfifo := s.rxfifo ++ bytes }
  | .cancel => .moved { s with intr := true }
  | .channel a => .moved { s with chan := s.chan ++ [a] }
  | .submit c => .moved (submitCommand s c)
  | .subscribe n => .moved (subscribe s n)
  | .present f g => .run ⟨.request g, f.bytes⟩ s
  | .codec n operand => .run ⟨.fn n, operand⟩ s

/-- The next move of the machine. -/
def fetch (s : State) : Fetched :=
  match s.schedule with
  | [] => defaultFetch s
  | m :: rest => fetchMove { s with schedule := rest } m

/-- The phase a code selects; PHASE is 3 bits wide (R21). -/
def phaseOfCode (code : Nat) : Phase :=
  match code % 8 with
  | 0 => .idle
  | 1 => .send
  | 2 => .waitA
  | 3 => .hdr
  | 4 => .data
  | 5 => .waitB
  | 6 => .cks
  | _ => .decode

/-- The reply of a 16-bit table word in the inbound frame registers, received whole, PHASE at DECODE:
the header, `LEN(CMD1)` zero data bytes and the checksum of what comes before (log 25). -/
def loadReply (s : State) (w : Nat) : State :=
  let h := tableHeader w
  let d := List.replicate (Codec.len h.cmd1) 0
  { s with
    phase := .decode
    rxhdr := h
    rxn := BitVec.ofNat 4 (Codec.len h.cmd1)
    rxdata := Buffer.ofList 15 (splice s.rxdata.bytes 0 d)
    rxcks := Codec.cksum (h.bytes ++ d) }

/-- The state in which the framer's very next step runs the table word's operation: a phase code in
PHASE, or a reply in the inbound registers with PHASE at DECODE (log 25). -/
def loadTableWord (s : State) (nbits w : Nat) : State :=
  let s1 := if nbits ≤ 8 then s.setPhase (phaseOfCode w) else loadReply s w
  { s1 with schedule := .framer :: s1.schedule }

end Sys2Proof.Machine
end

