-- ==== Sys2Proof/Machine/Step.lean ====
section
/-! DEFINITION. One step of the machine: fetch the next move; where it is an operation, decode it and
run it. -/

namespace Sys2Proof.Machine

/-- One step: one agent's move (spec/00_scope.md R7). -/
def step (s : State) : Host.Outcome State Fault Refusal :=
  match fetch s with
  | .moved s' => .next s'
  | .run im s' =>
    match decode s'.cfg im with
    | .ok i => exec i s'
    | .error e => .refused (.undecodable e)

/-- `s` with the table word stored where the framer fetches its next step from (log 25). -/
def State.withFetchWord (s : State) (nbits w : Nat) : State := loadTableWord s nbits w

end Sys2Proof.Machine
end

