-- ==== Sys2Proof/Safety.lean ====
section
/-! DEFINITION. What claims about the block are stated in: the invariant of every
reachable state, what an answer and a raise leave, the phase transitions, the end of a run. -/

namespace Sys2Proof.Machine

/-! ### The invariant of every reachable state -/

/-- What holds in every state a run reaches. -/
structure State.Inv (s : State) : Prop where
  /-- TXLEN is a count of at most 18 (R22). -/
  txlen_le : s.txlen.toNat ≤ 18
  /-- While BUSY, the frame being sent is not empty and its last byte is its checksum (R22, R131). -/
  stamped : s.phase ≠ .idle →
    1 ≤ s.txlen.toNat ∧ Codec.stamp (s.txbuf.bytes.take s.txlen.toNat) = s.txbuf.bytes.take s.txlen.toNat
  /-- RXN is the length nibble of RXHDR[0] (R25). -/
  rxn_eq : s.rxn.toNat = Codec.len s.rxhdr.cmd1
  /-- RDDATA is reached only with RXN above 0 (R135). -/
  data_pos : s.phase = .data → 0 < s.rxn.toNat
  /-- The host's duties 1 and 3 (R170): a request stands at REQ while the block is idle only, and it and
  every request that waits is a well-formed frame. -/
  req_idle : s.req ≠ none → s.phase = .idle
  req_wf : ∀ r, s.req = some r → Codec.wf r.frame.bytes = true
  queue_wf : ∀ r, HostItem.request r ∈ s.hostq → Codec.wf r.frame.bytes = true
  /-- TMR does not run outside the waits (R28). -/
  tmr_expired : s.tmr = .expired
  /-- Each cell holds the last value its stream published, or is absent when there is none (R32 to R35). -/
  tc_eq : s.curTc = (timecodeStream s.evlog).getLast?
  ub_local_eq : s.curUbLocal = (userbitsGroups s.evlog .localCh).getLast?
  ub_vert_eq : s.curUbVert = (userbitsGroups s.evlog .verticalCh).getLast?
  state_eq : s.curState = (stateStream s.evlog).getLast?
  /-- The Event Hub has consumed a part of EVLOG, in order, and holds that part's last values (R176). -/
  hub_le : s.hubPos ≤ s.evlog.length
  hub_tc : s.latestTc = (timecodeStream (s.evlog.take s.hubPos)).getLast?
  hub_state : s.latestState = (stateStream (s.evlog.take s.hubPos)).getLast?
  /-- A subscription began at an item its stream had reached (R172). -/
  subscribed : ∀ u ∈ s.subscriptions, u.start ≤ (streamItems s u.stream).length

/-! ### Results -/

/-- The codec call completes: it leaves its value and touches nothing else. -/
def answers (i : Instr) (s : State) (v : CodecValue) : Prop := exec i s = .next { s with result := some v }

/-- `t` is `s` after the trap entry of R193 with the record `e`, and nothing else: one ERR event,
CANCEL_OUT pulsed for Interrupted only, PHASE at IDLE; the error is logged, but perhaps not with P.DEBUG
off, because whether the toggle gates that line is not said (R193, R203). -/
def raised (s t : State) (e : ErrorRecord) : Prop :=
  (t.log = s.log ++ [.error e] ∨ s.cfg.debug = false ∧ t.log = s.log) ∧
    t = { s with
      evlog := s.evlog ++ [.err e]
      cancelOut := if e.kind = .interrupted then s.cancelOut + 1 else s.cancelOut
      phase := .idle
      log := t.log }

/-- `t` is `s` after the raise a failed channel primitive leads to (R56): Interrupted with the cause, the
pending bit cleared (R191), or IOFailure with the cause, INTR as it was (R192). -/
def raisedByCause (s t : State) (c : Cause) : Prop :=
  match c with
  | .io _ => raised s t ⟨.ioFailure, some c, none, none, none⟩
  | .interruption _ => raised { s with intr := false } t ⟨.interrupted, some c, none, none, none⟩

/-- The sum of a byte sequence over the natural numbers (R10). -/
def byteSum (l : List Byte) : Nat := (l.map BitVec.toNat).sum

/-- The bytes the step of a phase asks ChanRead for (R60). -/
def bytesAsked (s : State) : Nat :=
  match s.phase with
  | .hdr => 2
  | .data => s.rxn.toNat
  | .cks => 1
  | .idle => 0
  | .send => 0
  | .waitA => 0
  | .waitB => 0
  | .decode => 0

/-! ### Control -/

/-- The transfers of control of R140, those of one framer step, with the phase kept by a primitive that
never answers (U17) in SEND, HDR, DATA and CKS. -/
def transition (p q : Phase) : Bool :=
  match p with
  | .idle => q == .idle || q == .send
  | .send => q == .waitA || q == .idle || q == .send
  | .waitA => q == .hdr || q == .idle
  | .hdr => q == .data || q == .waitB || q == .idle || q == .hdr
  | .data => q == .waitB || q == .idle || q == .data
  | .waitB => q == .cks || q == .idle
  | .cks => q == .decode || q == .idle || q == .cks
  | .decode => q == .idle

/-- Every primitive answers (the premise of R228). -/
def State.channelAnswers (s : State) : Prop := ChanAnswer.never ∉ s.chan

/-- The next `n` primitives answer `ok`. -/
def State.okAnswers (s : State) (n : Nat) : Prop := ∀ a ∈ s.chan.take n, a = .ok

/-- The next move is another agent's than the framer's. -/
def State.framerWaits (s : State) : Prop := ∃ m r, s.schedule = m :: r ∧ m ≠ .framer

/-- The bytes DEVICE appends in the next move. -/
def State.arriving (s : State) : List Byte :=
  match s.schedule with
  | .device bs :: _ => bs
  | _ => []

/-- The end of a run: PHASE is IDLE, no request is presented, the host's queue is empty (R215). -/
def State.ended (s : State) : Prop := s.phase = .idle ∧ s.req = none ∧ s.hostq = []

/-- A step is safe when it answers a next state: none of the spec's five error kinds is a stop (R194). -/
def safeStep (s : State) : Prop := ∃ t, step s = .next t

end Sys2Proof.Machine
end

