-- ==== Sys2Proof/Certificates/Slice0/Obligations.lean ====
section
/-! DEFINITION. The statements for the provers. Each docstring says which rule of the spec it
formalises; what is the model's own choice says so and names the log entry. -/

open Sys2Proof Sys2Proof.Machine

/-! ### The codec functions -/

/-- R90: CKSUM is the sum of the bytes over the naturals, mod 256; it fails on no sequence. -/
def Obligations.CksumAnswersSumModTwoFiftySix : Prop :=
  ∀ (s : State) (l : List Byte), ∃ b : Byte, answers (.cksum l) s (.byte b) ∧ b.toNat = byteSum l % 256

/-- R91: STAMP replaces the last byte, whatever it was, by the checksum of the bytes before it. As the
old byte does not matter, stamping twice is stamping once. -/
def Obligations.StampReplacesTheSlotByTheChecksum : Prop :=
  ∀ (s : State) (body : List Byte) (slot : Byte), ∃ c : Byte, c.toNat = byteSum body % 256 ∧
    answers (.stamp body slot) s (.bytes (body ++ [c]))

/-- R92: VERIFY is true exactly when the checksum recomputed over header and data is the received one. -/
def Obligations.VerifyComparesTheRecomputedChecksum : Prop :=
  ∀ (s : State) (h : Header) (d : List Byte) (c : Byte), ∃ b : Bool, answers (.verify h d c) s (.truth b) ∧
    (b = true ↔ byteSum ([h.cmd1, h.cmd2] ++ d) % 256 = c.toNat)

/-- R100: LEN is the low nibble, on all 256 bytes. -/
def Obligations.LenReadsTheLowNibble : Prop :=
  ∀ (s : State) (b : Byte), answers (.len b) s (.count (b.toNat % 16))

/-- The pseudocode of R101 (which the spec marks as derived) and of R102: FLEN on every byte, WF and WFS
on every byte sequence. -/
def Obligations.FlenWfAndWfsDecideTheFrameShape : Prop :=
  (∀ (s : State) (b : Byte), answers (.flen b) s (.count (3 + b.toNat % 16))) ∧
  ∀ (s : State) (f : List Byte), ∃ b b' : Bool, answers (.wf f) s (.truth b) ∧ answers (.wfs f) s (.truth b') ∧
    (b = true ↔ ∃ c1 rest, f = c1 :: rest ∧ 3 ≤ f.length ∧ f.length = 3 + c1.toNat % 16) ∧
    (b' = true ↔ b = true ∧ ∃ body c, f = body ++ [c] ∧ c.toNat = byteSum body % 256)

/-- R103: SPLIT cuts exactly the well-formed frames into header, data and checksum; every other
sequence gives absent. -/
def Obligations.SplitCutsExactlyTheWellFormedFrames : Prop :=
  ∀ (s : State) (f : List Byte), ∃ p, answers (.split f) s (.parts p) ∧
    ∀ h d c, p = some (h, d, c) ↔ f = [h.cmd1, h.cmd2] ++ d ++ [c] ∧ d.length = h.cmd1.toNat % 16

/-- R106: HEXFMT writes each byte as its two upper-case digits, with single spaces between. -/
def Obligations.HexfmtWritesTwoDigitsPerByte : Prop :=
  ∀ (s : State) (l : List Byte),
    answers (.hexfmt l) s (.text (List.intercalate [' '] (l.map fun b =>
      ["0123456789ABCDEF".toList.getD (b.toNat / 16) ' ', "0123456789ABCDEF".toList.getD (b.toNat % 16) ' '])))

/-- R110: TCDEC is ten times the high nibble plus the low nibble, on all 256 bytes, at most 165. -/
def Obligations.TcdecIsTenTimesTensPlusUnits : Prop :=
  ∀ (s : State) (b : Byte), ∃ v : Nat, answers (.tcdec b) s (.count v) ∧
    v = 10 * (b.toNat / 16) + b.toNat % 16 ∧ v ≤ 165

/-- R111, R113 (100 to 159, and TC4ENC, are the spec's own derivation): TCENC on 0..159 and its refusal
outside; TC4ENC writes frames, seconds, minutes, hours by TCENC's formula when every field is in 0..159,
and is refused otherwise. -/
def Obligations.TimecodeEncodersWorkOnTheirDomain : Prop :=
  ∀ (s : State) (v : Int) (t : Timecode),
    (0 ≤ v ∧ v ≤ 159 → ∃ b : Byte, answers (.tcenc v) s (.byte b) ∧
      b.toNat = 16 * (v.toNat / 10) + v.toNat % 10) ∧
    (¬(0 ≤ v ∧ v ≤ 159) → exec (.tcenc v) s = .refused .tcencDomain) ∧
    ((t.frames ≤ 159 ∧ t.seconds ≤ 159 ∧ t.minutes ≤ 159 ∧ t.hours ≤ 159) → ∃ b0 b1 b2 b3 : Byte,
      answers (.tc4enc t) s (.bytes [b0, b1, b2, b3]) ∧
      b0.toNat = 16 * (t.frames / 10) + t.frames % 10 ∧ b1.toNat = 16 * (t.seconds / 10) + t.seconds % 10 ∧
      b2.toNat = 16 * (t.minutes / 10) + t.minutes % 10 ∧ b3.toNat = 16 * (t.hours / 10) + t.hours % 10) ∧
    (¬(t.frames ≤ 159 ∧ t.seconds ≤ 159 ∧ t.minutes ≤ 159 ∧ t.hours ≤ 159) →
      exec (.tc4enc t) s = .refused .tc4encDomain)

/-- R112: the four payload bytes are frames, seconds, minutes, hours: TC4DEC decodes each by TCDEC's
formula, on all payloads. -/
def Obligations.TimecodePayloadsDecodeInWireOrder : Prop :=
  ∀ (s : State) (d : Quad), ∃ u : Timecode, answers (.tc4dec d) s (.timecode u) ∧
    u.frames = 10 * (d.b0.toNat / 16) + d.b0.toNat % 16 ∧
    u.seconds = 10 * (d.b1.toNat / 16) + d.b1.toNat % 16 ∧
    u.minutes = 10 * (d.b2.toNat / 16) + d.b2.toNat % 16 ∧
    u.hours = 10 * (d.b3.toNat / 16) + d.b3.toNat % 16

/-- R115, R122, R123: the header tests compare all 16 bits with the configured headers. A timecode or
userbits header is its two fields `g` and `c` with length nibble 4 (R80); that, and `P.is_status` as a
finite list, are the model's choice (log 4). -/
def Obligations.HeaderTestsCompareAllSixteenBits : Prop :=
  ∀ (s : State) (h : Header), ∃ bt bl bv bs : Bool,
    answers (.istc h) s (.truth bt) ∧ answers (.isubl h) s (.truth bl) ∧
    answers (.isubv h) s (.truth bv) ∧ answers (.isstatus h) s (.truth bs) ∧
    (bt = true ↔ ∃ x ∈ [s.cfg.tcHdr.ltc, s.cfg.tcHdr.vtc, s.cfg.tcHdr.altLtc, s.cfg.tcHdr.timer1, s.cfg.tcHdr.timer2],
      h.cmd1.toNat = 16 * x.g.toNat + 4 ∧ h.cmd2 = x.c) ∧
    (bl = true ↔ ∃ x ∈ s.cfg.ubLocalHdr, h.cmd1.toNat = 16 * x.g.toNat + 4 ∧ h.cmd2 = x.c) ∧
    (bv = true ↔ ∃ x ∈ s.cfg.ubVertHdr, h.cmd1.toNat = 16 * x.g.toNat + 4 ∧ h.cmd2 = x.c) ∧
    (bs = true ↔ h ∈ s.cfg.statusHdr)

/-- R120, R121: UBDEC keeps the four bytes; UBPACK is the local group, then the vertical group, and is
refused when one is absent. -/
def Obligations.UserbitsCodecKeepsWireOrder : Prop :=
  ∀ (s : State) (q v : Quad) (u : Userbits),
    answers (.ubdec q) s (.group ⟨q.b0, q.b1, q.b2, q.b3⟩) ∧
    answers (.ubpack ⟨some q, some v⟩) s (.bytes [q.b0, q.b1, q.b2, q.b3, v.b0, v.b1, v.b2, v.b3]) ∧
    ((u.localGroup = none ∨ u.verticalGroup = none) → exec (.ubpack u) s = .refused .ubpackAbsent)

/-- R124: STDEC is the uninterpreted `P.decode_status` of header, data and tag. -/
def Obligations.StdecIsTheStatusDecoder : Prop :=
  ∀ (s : State) (h : Header) (d : List Byte) (g : VideoCommand),
    answers (.stdec h d g) s (.status (Config.decodeStatus h d g))

/-- R93 (c), (f): VERIFY answers the same on permuted data, and a change of one byte of a verified
reply, in header, data or checksum, makes it false. -/
def Obligations.VerifyIgnoresOrderAndSeesOneChangedByte : Prop :=
  ∀ (s : State) (h : Header) (d : List Byte) (c : Byte),
    (∀ d' : List Byte, d.Perm d' → exec (.verify h d c) s = exec (.verify h d' c) s) ∧
    (answers (.verify h d c) s (.truth true) → ∀ (pre post : List Byte) (x y : Byte),
      [h.cmd1, h.cmd2] ++ d ++ [c] = pre ++ x :: post → x ≠ y →
      ∀ h' d' c', [h'.cmd1, h'.cmd2] ++ d' ++ [c'] = pre ++ y :: post →
        answers (.verify h' d' c') s (.truth false))

/-- R94: a stamped frame whose length nibble is its data count always validates. -/
def Obligations.StampedFramesAlwaysVerify : Prop :=
  ∀ (s : State) (h : Header) (d : List Byte) (slot : Byte), ∃ c : Byte,
    answers (.stamp ([h.cmd1, h.cmd2] ++ d) slot) s (.bytes ([h.cmd1, h.cmd2] ++ d ++ [c])) ∧
    c.toNat = byteSum ([h.cmd1, h.cmd2] ++ d) % 256 ∧ answers (.verify h d c) s (.truth true)

/-- R114 (a), (b), (c): decoding an encoded value gives it back on 0..159; encoding a decoded byte gives
the byte back exactly when its units nibble is at most 9; and the same for whole records. -/
def Obligations.TimecodeCodecRoundTrips : Prop :=
  ∀ s : State,
    (∀ v : Nat, v ≤ 159 → ∃ b, answers (.tcenc v) s (.byte b) ∧ answers (.tcdec b) s (.count v)) ∧
    (∀ b : Byte, ∃ v : Nat, answers (.tcdec b) s (.count v) ∧
      (answers (.tcenc v) s (.byte b) ↔ b.toNat % 16 ≤ 9)) ∧
    (∀ t : Timecode, t.frames ≤ 159 → t.seconds ≤ 159 → t.minutes ≤ 159 → t.hours ≤ 159 → ∃ q : Quad,
      answers (.tc4enc t) s (.bytes [q.b0, q.b1, q.b2, q.b3]) ∧ answers (.tc4dec q) s (.timecode t))

/-! ### The framer -/

/-- FRAME as the host's presentation (log 3) at REQ: the host's duties 1 to 3 of R170 hold by construction.
A well-formed frame goes to REQ when the block is idle, REQ empty and nothing waits; else it joins the end of
the host's queue, so that arrival order is kept (R41, R68; the queue as the place of waiting is log 19). A
frame that is not well formed is refused, as R170 and U4 ask (log 15). -/
def Obligations.PresentedFrameIsHeldByThePort : Prop :=
  ∀ (s : State) (f : Frame) (g : VideoCommand),
    (Codec.wf f.bytes = true →
      (s.phase = .idle ∧ s.req = none ∧ s.hostq = [] → exec (.frame f g) s = .next { s with req := some ⟨f, g⟩ }) ∧
      (¬(s.phase = .idle ∧ s.req = none ∧ s.hostq = []) →
        exec (.frame f g) s = .next { s with hostq := s.hostq ++ [.request ⟨f, g⟩] })) ∧
    (Codec.wf f.bytes = false → exec (.frame f g) s = .refused .frameNotWellFormed)

/-- R131: ACCEPT copies the presented frame into TXBUF with its last byte replaced by the checksum of
the others, sets TXLEN and TAG, empties REQ and selects SEND; the rest of TXBUF keeps its bytes. With no
request it stays in IDLE. -/
def Obligations.AcceptStampsAndTakesTheRequest : Prop :=
  ∀ s : State,
    (s.req = none → exec .accept s = .next { s with phase := .idle }) ∧
    ∀ r : Request, s.req = some r → ∃ (b : Buffer 18) (n : BitVec 5) (body : List Byte) (slot c : Byte),
      exec .accept s = .next { s with txbuf := b, txlen := n, tag := r.tag, req := none, phase := .send } ∧
      n.toNat = r.frame.bytes.length ∧ r.frame.bytes = body ++ [slot] ∧ c.toNat = byteSum body % 256 ∧
      b.bytes.take n.toNat = body ++ [c] ∧ b.bytes.drop n.toNat = s.txbuf.bytes.drop n.toNat

/-- R132, R53, the write that answers `ok`: SEND appends TXBUF[0..TXLEN-1] to TXSTREAM in one write,
selects WAIT_A, and writes the outbound log line exactly when P.DEBUG is set. -/
def Obligations.SendWritesTheWholeFrame : Prop :=
  ∀ s : State, s.txlen.toNat ≤ 18 → s.okAnswers 1 → ∃ text : List Char,
    answers (.hexfmt (s.txbuf.bytes.take s.txlen.toNat)) s (.text text) ∧
    exec .send s = .next { s with
      txstream := s.txstream ++ s.txbuf.bytes.take s.txlen.toNat
      chan := s.chan.drop 1
      log := if s.cfg.debug then s.log ++ [.outbound text s.tag] else s.log
      phase := .waitA }

/-- R53, R132, R186, R190: a failed write has sent a prefix of the frame, any prefix for some answer of
the channel; SEND raises Interrupted with the cause, clearing INTR (read from R191, log 12), or IOFailure
with the cause, INTR as it was. -/
def Obligations.FailedWriteSendsAnyPrefixAndRaises : Prop :=
  ∀ (s : State) (r : List ChanAnswer), s.txlen.toNat ≤ 18 →
    (∀ (c : Cause) (k : Nat), s.chan = .failed c k :: r → ∃ pre t, pre <+: s.txbuf.bytes.take s.txlen.toNat ∧
      exec .send s = .next t ∧ raisedByCause { s with chan := r, txstream := s.txstream ++ pre } t c) ∧
    (∀ (c : Cause) (pre : List Byte), pre <+: s.txbuf.bytes.take s.txlen.toNat → ∃ k t,
      exec .send { s with chan := .failed c k :: r } = .next t ∧ t.txstream = s.txstream ++ pre)

/-- R133, R136, R197: with no interruption pending, each wait selects the next step, TMR is expired and
at least P.DELAY ms more have passed (the count is the model's own, log 10). -/
def Obligations.WaitsExpireAndSelectTheNextStep : Prop :=
  ∀ s : State, s.intr = false →
    exec .waitA s = .next { s with tmr := .expired, waitedMs := s.waitedMs + s.cfg.delay, phase := .hdr } ∧
    exec .waitB s = .next { s with tmr := .expired, waitedMs := s.waitedMs + s.cfg.delay, phase := .cks }

/-- R133, R136, R190, R191: with an interruption pending, each wait clears it and raises Interrupted with
no cause. That TMR is expired after it is the model's choice (log 10). -/
def Obligations.PendingInterruptionAbortsTheWaits : Prop :=
  ∀ s : State, s.intr = true → ∀ i ∈ [Instr.waitA, Instr.waitB], ∃ t, exec i s = .next t ∧
    raised { s with tmr := .expired, intr := false } t ⟨.interrupted, none, none, none, none⟩

/-- R134, R217: with two bytes available RDHDR consumes exactly those two, stores them and the length
nibble, and selects DATA or WAIT_B; with fewer the cycle ends silently and nothing is consumed. -/
def Obligations.RdhdrReadsTwoBytesOrEndsSilently : Prop :=
  ∀ s : State,
    (∀ (a b : Byte) (rest : List Byte), s.rxfifo = a :: b :: rest → s.okAnswers 2 → ∃ n : BitVec 4,
      n.toNat = a.toNat % 16 ∧
      exec .rdhdr s = .next { s with
        rxhdr := ⟨a, b⟩, rxn := n, rxfifo := rest, chan := s.chan.drop 2
        phase := if 0 < a.toNat % 16 then .data else .waitB }) ∧
    (s.rxfifo.length < 2 → s.okAnswers 1 →
      exec .rdhdr s = .next { s with chan := s.chan.drop 1, phase := .idle })

/-- R135, R187: with RXN bytes available RDDATA consumes exactly those into RXDATA[0..RXN-1], leaves the
rest of RXDATA, and selects WAIT_B; with fewer it consumes none of them and raises MissingData with the
header. -/
def Obligations.RddataReadsTheAnnouncedBytesOrRaises : Prop :=
  ∀ s : State,
    (s.rxn.toNat ≤ s.rxfifo.length → s.okAnswers 2 → ∃ b : Buffer 15,
      exec .rddata s = .next { s with
        rxdata := b, rxfifo := s.rxfifo.drop s.rxn.toNat, chan := s.chan.drop 2, phase := .waitB } ∧
      b.bytes = s.rxfifo.take s.rxn.toNat ++ s.rxdata.bytes.drop s.rxn.toNat) ∧
    (s.rxfifo.length < s.rxn.toNat → s.okAnswers 1 → ∃ t, exec .rddata s = .next t ∧
      raised { s with chan := s.chan.drop 1 } t ⟨.missingData, none, some s.rxhdr, none, none⟩)

/-- R137: RDCKS consumes exactly one byte into RXCKS and selects DECODE; with none available it raises
MissingChecksum with the header and the RXN data bytes (R188). -/
def Obligations.RdcksReadsOneByteOrRaises : Prop :=
  ∀ s : State,
    (∀ (c : Byte) (rest : List Byte), s.rxfifo = c :: rest → s.okAnswers 2 →
      exec .rdcks s = .next { s with rxcks := c, rxfifo := rest, chan := s.chan.drop 2, phase := .decode }) ∧
    (s.rxfifo = [] → s.okAnswers 1 → ∃ t, exec .rdcks s = .next t ∧
      raised { s with chan := s.chan.drop 1 } t
        ⟨.missingChecksum, none, some s.rxhdr, some (s.rxdata.bytes.take s.rxn.toNat), none⟩)

/-- R56, R186, R190: in RDHDR, RDDATA and RDCKS a failed ChanAvail removes nothing, a failed ChanRead
removes 0 to n bytes from the front, any number for some answer, none of which reaches a register; either
raises by its cause (the clearing of INTR by the channel's interruption: log 12). -/
def Obligations.FailedReadsRaiseByTheirCause : Prop :=
  ∀ (s : State) (c : Cause) (r : List ChanAnswer),
    ∀ p ∈ [(Instr.rdhdr, 2), (Instr.rddata, s.rxn.toNat), (Instr.rdcks, 1)],
      (∀ k, s.chan = .failed c k :: r → ∃ t, exec p.1 s = .next t ∧ raisedByCause { s with chan := r } t c) ∧
      (p.2 ≤ s.rxfifo.length →
        (∀ k, s.chan = .ok :: .failed c k :: r → ∃ n t, n ≤ p.2 ∧ exec p.1 s = .next t ∧
          raisedByCause { s with chan := r, rxfifo := s.rxfifo.drop n } t c) ∧
        (∀ n, n ≤ p.2 → ∃ k t, exec p.1 { s with chan := .ok :: .failed c k :: r } = .next t ∧
          t.rxfifo = s.rxfifo.drop n))

/-- U17 of 93_implementation_defined.md, as the model renders it (log 7): while the channel does not
answer, the step leaves the whole state as it was, so the block stays in its phase and BUSY stays high; also
when it is the ChanRead that hangs, after the ChanAvail of the same step has answered. -/
def Obligations.SilentChannelHoldsThePhase : Prop :=
  ∀ (s : State) (r : List ChanAnswer),
    (s.chan = .never :: r → s.txlen.toNat ≤ 18 →
      ∀ i ∈ [Instr.send, Instr.rdhdr, Instr.rddata, Instr.rdcks], exec i s = .next s) ∧
    (s.chan = .ok :: .never :: r →
      ∀ p ∈ [(Instr.rdhdr, 2), (Instr.rddata, s.rxn.toNat), (Instr.rdcks, 1)], p.2 ≤ s.rxfifo.length →
        exec p.1 s = .next s)

/-- R138, R150: PARSE runs the operation the reply in the inbound registers decodes to, on the state
with the inbound log line added when P.DEBUG is set, and then selects IDLE. -/
def Obligations.ParseRunsTheDecodedReply : Prop :=
  ∀ s : State, s.rxn.toNat = s.rxhdr.cmd1.toNat % 16 → ∃ (i : Instr) (text : List Char) (t : State),
    let frame := [s.rxhdr.cmd1, s.rxhdr.cmd2] ++ s.rxdata.bytes.take s.rxn.toNat ++ [s.rxcks]
    decode s.cfg ⟨.reply, frame⟩ = .ok i ∧ answers (.hexfmt frame) s (.text text) ∧
    exec i { s with log := if s.cfg.debug then s.log ++ [.inbound text] else s.log } = .next t ∧
    exec .parse s = .next { t with phase := .idle }

/-! ### The parser's arms -/

/-- R151: on a mismatch the gate emits one ERR(ChecksumMismatch) with header, data and received checksum
and writes nothing else; on a match it does nothing. That the mismatch is not logged is the model's choice
(log 14). -/
def Obligations.ChecksumGateEmitsOneMismatch : Prop :=
  ∀ (s : State) (h : Header) (d : List Byte) (c : Byte),
    (byteSum ([h.cmd1, h.cmd2] ++ d) % 256 ≠ c.toNat →
      exec (.pVerify h d c) s = .next { s with
        evlog := s.evlog ++ [.err ⟨.checksumMismatch, none, some h, some d, some c⟩] }) ∧
    (byteSum ([h.cmd1, h.cmd2] ++ d) % 256 = c.toNat → exec (.pVerify h d c) s = .next s)

/-- R153: each of the five timecode arms overwrites CUR_TC with the decoded payload and publishes it,
whatever the cell held, and touches nothing else. -/
def Obligations.TimecodeRepliesOverwriteAndPublish : Prop :=
  ∀ (s : State) (d : Quad), ∃ t : Timecode,
    t.frames = 10 * (d.b0.toNat / 16) + d.b0.toNat % 16 ∧ t.seconds = 10 * (d.b1.toNat / 16) + d.b1.toNat % 16 ∧
    t.minutes = 10 * (d.b2.toNat / 16) + d.b2.toNat % 16 ∧ t.hours = 10 * (d.b3.toNat / 16) + d.b3.toNat % 16 ∧
    ∀ i ∈ [Instr.pTcLtc d, .pTcVtc d, .pTcAltLtc d, .pTcTimer1 d, .pTcTimer2 d],
      exec i s = .next { s with curTc := some t, evlog := s.evlog ++ [.tc t] }

/-- R154, R155: a userbits arm overwrites its own cell with the four bytes as they arrived, leaves the
other, and publishes which field, the group and the two-field value. -/
def Obligations.UserbitsRepliesWriteTheirOwnCell : Prop :=
  ∀ (s : State) (h : Header) (d : Quad),
    exec (.pUbLocal h d) s = .next { s with
      curUbLocal := some d, evlog := s.evlog ++ [.ub .localCh d ⟨some d, s.curUbVert⟩] } ∧
    exec (.pUbVert h d) s = .next { s with
      curUbVert := some d, evlog := s.evlog ++ [.ub .verticalCh d ⟨s.curUbLocal, some d⟩] }

/-- R156, R157: a status arm overwrites CUR_STATE with `P.decode_status` of header, data and TAG and
publishes it; the drop arm changes nothing. -/
def Obligations.StatusRepliesPublishAndOthersDrop : Prop :=
  ∀ (s : State) (h : Header) (d : List Byte), ∃ st : RS422State, st = Config.decodeStatus h d s.tag ∧
    exec (.pStatus h d) s = .next { s with curState := some st, evlog := s.evlog ++ [.state st] } ∧
    exec (.pDrop h d) s = .next s

/-- R150, R152: the order of classification. A reply decodes to the checksum gate exactly when it does
not verify, and otherwise to the first class its header is in: timecode, local, vertical, status, none. Every
`Config` has disjoint timecode and userbits sets (R8, R80; held by its type, log 18). -/
def Obligations.RepliesAreClassifiedInOrder : Prop :=
  ∀ (P : Config) (h : Header) (d : List Byte) (c : Byte), d.length = h.cmd1.toNat % 16 → ∃ i,
    decode P ⟨.reply, [h.cmd1, h.cmd2] ++ d ++ [c]⟩ = .ok i ∧
    (byteSum ([h.cmd1, h.cmd2] ++ d) % 256 ≠ c.toNat ↔ i = .pVerify h d c) ∧
    (byteSum ([h.cmd1, h.cmd2] ++ d) % 256 = c.toNat →
      (Codec.istc P h = true → ∃ q : Quad, d = [q.b0, q.b1, q.b2, q.b3] ∧
        i ∈ [Instr.pTcLtc q, .pTcVtc q, .pTcAltLtc q, .pTcTimer1 q, .pTcTimer2 q]) ∧
      (Codec.istc P h = false → Codec.isubl P h = true → ∃ q : Quad, d = [q.b0, q.b1, q.b2, q.b3] ∧ i = .pUbLocal h q) ∧
      (Codec.istc P h = false → Codec.isubl P h = false → Codec.isubv P h = true →
        ∃ q : Quad, d = [q.b0, q.b1, q.b2, q.b3] ∧ i = .pUbVert h q) ∧
      (Codec.istc P h = false → Codec.isubl P h = false → Codec.isubv P h = false →
        i = if Codec.isstatus P h then .pStatus h d else .pDrop h d))

/-- R158: the tag reaches only the status decoder. With a reply header outside the status class, PARSE
with another TAG does the same, TAG apart. -/
def Obligations.TagReachesOnlyTheStatusDecoder : Prop :=
  ∀ (s t : State) (g : VideoCommand), Codec.isstatus s.cfg s.rxhdr = false → exec .parse s = .next t →
    exec .parse { s with tag := g } = .next { t with tag := g }

/-- R161 (e): what Parse appends to EVLOG is a function of the reply, the tag, the two userbits cells
and the configuration: two states that agree on them append the same events, at most one. -/
def Obligations.ParseEventDependsOnTheReplyOnly : Prop :=
  ∀ s s' t t' : State, s.cfg = s'.cfg → s.rxhdr = s'.rxhdr → s.rxn = s'.rxn → s.rxdata = s'.rxdata →
    s.rxcks = s'.rxcks → s.tag = s'.tag → s.curUbLocal = s'.curUbLocal → s.curUbVert = s'.curUbVert →
    exec .parse s = .next t → exec .parse s' = .next t' →
    ∃ l, l.length ≤ 1 ∧ t.evlog = s.evlog ++ l ∧ t'.evlog = s'.evlog ++ l

/-! ### The trap entry -/

/-- R193 with the table of R185: raise emits one ERR with the kind's fields, pulses CANCEL_OUT for
Interrupted only, selects IDLE and changes nothing else but the log, which gains the error, always so with
P.DEBUG set. RAISE as an operation of its own, with any cause and the registers' fields, is log 27; the count
of pulses is log 11. -/
def Obligations.RaiseIsTheTrapEntry : Prop :=
  ∀ (s : State) (k : ErrKind) (c : Option Cause), ∃ t, exec (.raise k c) s = .next t ∧
    raised s t (match k with
      | .ioFailure => ⟨.ioFailure, c, none, none, none⟩
      | .missingData => ⟨.missingData, c, some s.rxhdr, none, none⟩
      | .missingChecksum => ⟨.missingChecksum, c, some s.rxhdr, some (s.rxdata.bytes.take s.rxn.toNat), none⟩
      | .checksumMismatch =>
        ⟨.checksumMismatch, c, some s.rxhdr, some (s.rxdata.bytes.take s.rxn.toNat), some s.rxcks⟩
      | .interrupted => ⟨.interrupted, c, none, none, none⟩)

/-! ### The host -/

/-- R166: request userbits becomes the two commands, local then vertical; no frame of its own goes out.
That they go back to the head of the queue, before whatever waits, is the model's choice (log 19). -/
def Obligations.RequestUserbitsFansOut : Prop :=
  ∀ s : State, exec .requestUserbits s = .next { s with
    hostq := [.command .requestLocalUserbits, .command .requestVerticalUserbits] ++ s.hostq }

/-- R167, R178: the two no-op commands reach neither REQ nor TXSTREAM; the video-index stream receives a
value with a populated timestamp, a fresh draw of the wall clock, and absent timecode. Whether it becomes
`last_vi` is open, and that it is published unfiltered is the model's choice (log 20); so is that request elapsed
time does nothing beyond it (log 30). -/
def Obligations.NoopCommandsSendNothing : Prop :=
  ∀ s : State, ∀ i ∈ [Instr.requestTimestamp, Instr.requestElapsedTime], ∃ lv,
    (lv = s.lastVi ∨ lv = some ⟨some (Config.now s.draws), none⟩) ∧
    exec i s = .next { s with
      draws := s.draws + 1
      viStream := s.viStream ++ [⟨some (Config.now s.draws), none⟩]
      lastVi := lv }

/-- R168 and, for a command that finds the block busy or REQ occupied, log 19 (the model's choice): an
UNDEFINED command is dropped with no effect; another's frame is presented with the command as its tag, or
the command stays the first in the queue. A table's frame that is not well formed is refused, as R170 and U4
ask (log 15). -/
def Obligations.OtherCommandsAreLookedUp : Prop :=
  ∀ (s : State) (c : VideoCommand),
    (Codec.encodeCmd s.cfg c = none → exec (.otherVideoCommand c) s = .next s) ∧
    ∀ f, Codec.encodeCmd s.cfg c = some f →
      (Codec.wf f.bytes = true →
        (s.phase = .idle ∧ s.req = none → exec (.otherVideoCommand c) s = .next { s with req := some ⟨f, c⟩ }) ∧
        (¬(s.phase = .idle ∧ s.req = none) →
          exec (.otherVideoCommand c) s = .next { s with hostq := .command c :: s.hostq })) ∧
      (Codec.wf f.bytes = false → exec (.otherVideoCommand c) s = .refused .frameNotWellFormed)

/-- R176, R177: when the Event Hub consumes a timecode or a state event it keeps the value, recomputes the
video index, with a fresh timestamp, a draw no other use has, exactly when the last state says recording, and
publishes it only if it differs from the last value published; nothing else changes. A userbits or an error
event changes none of this. That the hub consumes one event in a move of its own is the model's choice
(log 20); the draw counter is log 21. -/
def Obligations.VideoIndexIsDistinctUntilChanged : Prop :=
  ∀ (s : State) (r : List Move) (e : Event), s.schedule = .hub :: r → s.evlog[s.hubPos]? = some e →
    (∀ (tc : Option Timecode) (st : Option RS422State),
      ((∃ T, e = .tc T ∧ tc = some T ∧ st = s.latestState) ∨ (∃ v, e = .state v ∧ tc = s.latestTc ∧ st = some v)) →
      ∃ (ts : Option Instant) (d : Nat) (vs : List VideoIndex) (lv : Option VideoIndex),
        step s = .next { s with
          schedule := r
          hubPos := s.hubPos + 1
          latestTc := tc
          latestState := st
          draws := d
          viStream := vs
          lastVi := lv } ∧
        ((∃ v, st = some v ∧ Config.isRecording v = true) → ts = some (Config.now s.draws) ∧ d = s.draws + 1) ∧
        ((∀ v, st = some v → Config.isRecording v = false) → ts = none ∧ d = s.draws) ∧
        (s.lastVi = some ⟨ts, tc⟩ → vs = s.viStream ∧ lv = s.lastVi) ∧
        (s.lastVi ≠ some ⟨ts, tc⟩ → vs = s.viStream ++ [⟨ts, tc⟩] ∧ lv = some ⟨ts, tc⟩)) ∧
    (((∃ w g c, e = .ub w g c) ∨ (∃ x, e = .err x)) →
      step s = .next { s with schedule := r, hubPos := s.hubPos + 1 })

/-! ### Encoding -/

/-- Words written out from the encodings: the eight phase codes (R85); a timecode reply (R76) under a
configuration with that header; a reply with a wrong checksum; a verified reply whose header is in no class,
which is dropped (R157); a reply that is too short. That a request of the wrong length is refused when it is
presented is the model's reading of R170 item 3 and U4 (log 15); the block itself checks no length (R84). The
numbers of the error labels, which the spec calls labels only (R185), are log 27, and the images that carry
them log 2. -/
def Obligations.WordsDecodeAsTheSpecWritesThem : Prop :=
  ∀ P : Config,
    (decode P ⟨.phase, [0]⟩ = .ok .accept ∧ decode P ⟨.phase, [1]⟩ = .ok .send ∧ decode P ⟨.phase, [2]⟩ = .ok .waitA ∧
      decode P ⟨.phase, [3]⟩ = .ok .rdhdr ∧ decode P ⟨.phase, [4]⟩ = .ok .rddata ∧ decode P ⟨.phase, [5]⟩ = .ok .waitB ∧
      decode P ⟨.phase, [6]⟩ = .ok .rdcks ∧ decode P ⟨.phase, [7]⟩ = .ok .parse ∧
      decode P ⟨.phase, [8]⟩ = .error .phaseCode) ∧
    (P.tcHdr.ltc = ⟨7, 4⟩ →
      decode P ⟨.reply, [0x74, 0x04, 0x12, 0x34, 0x56, 0x01, 0x15]⟩ = .ok (.pTcLtc ⟨0x12, 0x34, 0x56, 0x01⟩)) ∧
    decode P ⟨.reply, [0x74, 0x04, 0x12, 0x34, 0x56, 0x01, 0x16]⟩ =
      .ok (.pVerify ⟨0x74, 0x04⟩ [0x12, 0x34, 0x56, 0x01] 0x16) ∧
    (Codec.istc P ⟨0x10, 0x01⟩ = false → Codec.isubl P ⟨0x10, 0x01⟩ = false → Codec.isubv P ⟨0x10, 0x01⟩ = false →
      Codec.isstatus P ⟨0x10, 0x01⟩ = false →
      decode P ⟨.reply, [0x10, 0x01, 0x11]⟩ = .ok (.pDrop ⟨0x10, 0x01⟩ [])) ∧
    decode P ⟨.reply, [0x74, 0x04, 0x12]⟩ = .error .replyShape ∧
    (∀ g, decode P ⟨.request g, [0x21, 0x00, 0x21]⟩ = .error .requestShape) ∧
    decode P ⟨.trap none, [2]⟩ = .ok (.raise .missingData none) ∧
    decode P ⟨.trap none, [6]⟩ = .error .trapKind

/-- The encodings of 30_encoding.md: decoding the image of a well-formed operation gives the operation
back, for every operation and every value of its operands, under every configuration. The images of the
operations without an opcode are the model's choice (log 2). -/
def Obligations.DecodeOfEncodeIsTheOperation : Prop :=
  ∀ (P : Config) (i : Instr), i.wellFormed P = true → decode P (encode P i) = .ok i

/-- The other way round: each image has one meaning. For the codec functions, RAISE and the host commands
the images are the model's own (log 2). -/
def Obligations.EncodeOfDecodeIsTheImage : Prop :=
  ∀ (P : Config) (im : Image) (i : Instr), decode P im = .ok i → encode P i = im

/-- What the decoder accepts is well formed: no operand leaves its domain. The domains: VERIFY's data (R92),
TCENC and TC4ENC (R111, R113), UBPACK (R121), STDEC's data (R124), a reply and its one arm (R150, R152; which
of the five timecode arms when their headers are equal: log 4), the commands the dispatcher does not expand
(R166 to R168). The model's readings are that an accepted request is a well-formed frame (R170 item 3, U4:
log 15) and that a raise carries only a cause its kind has (R185: log 27); the images of the operands of the
codec functions, of RAISE and of the host commands are the model's own (log 2). -/
def Obligations.DecodedOperationsAreWellFormed : Prop :=
  ∀ (P : Config) (im : Image) (i : Instr), decode P im = .ok i → i.wellFormed P = true

/-! ### The whole machine -/

/-- One step is the operation the moving agent selects, run on the state with that move taken from the
schedule (log 1): the framer's is PHASE's step, the host's a frame it presents or a codec function, the
dispatcher's the command at the head of its queue. A dispatcher whose head is a waiting request puts it at
REQ (log 19), and one that finds the block busy, REQ occupied or its queue empty does nothing. With an empty
schedule the framer moves while there is a request or a cycle, then the hub while it is behind, then the
dispatcher while its queue is not empty, and else the framer. -/
def Obligations.StepRunsTheDecodedOperation : Prop :=
  ∀ (s : State) (i : Instr) (r : List Move),
    (s.schedule = .framer :: r → decode s.cfg ⟨.phase, [BitVec.ofNat 8 (phaseCode s.phase)]⟩ = .ok i →
      step s = exec i { s with schedule := r }) ∧
    (s.schedule = [] → (s.phase ≠ .idle ∨ s.req ≠ none ∨ (s.hostq = [] ∧ s.evlog.length ≤ s.hubPos)) →
      decode s.cfg ⟨.phase, [BitVec.ofNat 8 (phaseCode s.phase)]⟩ = .ok i → step s = exec i s) ∧
    (∀ n l, s.schedule = .codec n l :: r → decode s.cfg ⟨.fn n, l⟩ = .ok i → step s = exec i { s with schedule := r }) ∧
    (∀ f g, s.schedule = .present f g :: r → decode s.cfg ⟨.request g, f.bytes⟩ = .ok i →
      step s = exec i { s with schedule := r }) ∧
    (∀ c q, s.schedule = .dispatcher :: r → s.phase = .idle → s.req = none → s.hostq = .command c :: q →
      decode s.cfg ⟨.host c, []⟩ = .ok i → step s = exec i { s with schedule := r, hostq := q }) ∧
    (∀ rq q, s.schedule = .dispatcher :: r → s.phase = .idle → s.req = none → s.hostq = .request rq :: q →
      step s = .next { s with schedule := r, hostq := q, req := some rq }) ∧
    (s.schedule = .dispatcher :: r → (s.phase ≠ .idle ∨ s.req ≠ none ∨ s.hostq = []) →
      step s = .next { s with schedule := r }) ∧
    (s.schedule = [] → s.phase = .idle → s.req = none →
      (s.hubPos < s.evlog.length → step s = step { s with schedule := [.hub] }) ∧
      (s.evlog.length ≤ s.hubPos → s.hostq ≠ [] → step s = step { s with schedule := [.dispatcher] }))

/-- R66, R191, R169, R172: DEVICE appends any bytes to RXFIFO, HOST-CANCEL sets the pending bit in any phase,
CHANNEL-FAULT decides the answer of a later primitive (queued at the end of `chan`: log 6), a caller's command
joins the queue and the commands-in stream, and a subscriber subscribes at the item its stream has reached, so
that it has been shown nothing yet (log 29); each touches nothing else but the schedule (log 1). -/
def Obligations.EnvironmentMovesTouchOnlyTheirPort : Prop :=
  ∀ (s : State) (r : List Move),
    (∀ bs, s.schedule = .device bs :: r → step s = .next { s with schedule := r, rxfifo := s.rxfifo ++ bs }) ∧
    (s.schedule = .cancel :: r → step s = .next { s with schedule := r, intr := true }) ∧
    (∀ a, s.schedule = .channel a :: r → step s = .next { s with schedule := r, chan := s.chan ++ [a] }) ∧
    (∀ c, s.schedule = .submit c :: r → step s = .next { s with
      schedule := r, hostq := s.hostq ++ [.command c], commandsIn := s.commandsIn ++ [c] }) ∧
    (∀ n, s.schedule = .subscribe n :: r → ∃ u : Subscription, u.stream = n ∧ subscriberView s u = [] ∧
      u.start = (streamItems s n).length ∧
      step s = .next { s with schedule := r, subscriptions := s.subscriptions ++ [u] })

/-- R46, R210: the reset values the spec states; and the end of a run holds there (R215), for which the
empty queue is the model's choice (log 19), as are the absence of subscriptions (log 29) and the unknown
configuration (log 4). -/
def Obligations.ResetLeavesTheStatedValues : Prop :=
  State.reset.phase = .idle ∧ State.reset.tmr = .expired ∧ State.reset.curTc = none ∧
    State.reset.curUbLocal = none ∧ State.reset.curUbVert = none ∧ State.reset.curState = none ∧
    State.reset.evlog = [] ∧ State.reset.intr = false ∧ State.reset.req = none ∧ State.reset.txstream = [] ∧
    State.reset.cfg = Config.supplied ∧ State.reset.ended ∧ State.reset.subscriptions = []

/-- The reset state meets the invariant. It rests on the values of R46 and R176 and on reset values that are
the model's choice: TXLEN, RXHDR and RXN at zero (log 8), the empty queue (log 19, `queue_wf`), the Event
Hub's position 0 (log 20, `hub_le`, `hub_tc`, `hub_state`) and no subscription (log 29, `subscribed`). -/
def Obligations.ResetMeetsTheStateInvariant : Prop := State.reset.Inv

/-- Every step of every agent keeps the invariant: the frame being sent stays stamped, RXN stays the
length nibble of RXHDR[0], each cell stays the last value its stream published (R22, R25, R35), a request
stands at REQ while the block is idle only, and every request there or waiting is well formed (R170 items 1
and 3; log 15, log 19). The clause on TMR rests on log 10, those on the Event Hub's position on log 20, that
on subscriptions on log 29. -/
def Obligations.EveryStepKeepsTheStateInvariant : Prop := ∀ s t : State, s.Inv → step s = .next t → t.Inv

/-- Under the invariant the machine stops only where a codec call is outside its domain or a request breaks
the host's duty 3 of R170 (log 15): every other agent's move answers a next state (R82, R194). The duty is stated as
premises on the frames that the next move presents and on the command table. -/
def Obligations.OnlyCodecCallsCanStop : Prop :=
  ∀ s : State, s.Inv → s.cfg.wellFormed = true → (∀ n l r, s.schedule ≠ .codec n l :: r) →
    (∀ f g r, s.schedule = .present f g :: r → Codec.wf f.bytes = true) → ∃ t, step s = .next t

/-- R40, R171, R172: EVLOG only grows, at its end, and one step emits at most one event; so do the commands-in
and the video-index stream; a subscription stays, and what its subscriber has been shown only grows, at its
end. -/
def Obligations.EventsAreOnlyAppended : Prop :=
  ∀ s t : State, step s = .next t →
    (∃ l, t.evlog = s.evlog ++ l ∧ l.length ≤ 1) ∧
    (∃ l, t.commandsIn = s.commandsIn ++ l ∧ l.length ≤ 1) ∧
    (∃ l, t.viStream = s.viStream ++ l ∧ l.length ≤ 1) ∧
    (∃ l, t.subscriptions = s.subscriptions ++ l ∧ l.length ≤ 1) ∧
    (∀ u ∈ s.subscriptions, ∃ l, subscriberView t u = subscriberView s u ++ l)

/-- R8, R35 (a), R196: only PARSE writes the cells, which is the framer's step in DECODE, and nobody the
configuration. -/
def Obligations.CellsAndConfigurationKeepTheirOwners : Prop :=
  ∀ s t : State, step s = .next t → t.cfg = s.cfg ∧ ((s.phase ≠ .decode ∨ s.framerWaits) →
    t.curTc = s.curTc ∧ t.curUbLocal = s.curUbLocal ∧ t.curUbVert = s.curUbVert ∧ t.curState = s.curState)

/-- R42, R53, R65 item 3: TXSTREAM only grows, only in SEND, and by a prefix of the frame in TXBUF. -/
def Obligations.TransmitStreamGrowsOnlyInSend : Prop :=
  ∀ s t : State, step s = .next t → ∃ l, t.txstream = s.txstream ++ l ∧ (s.phase ≠ .send → l = []) ∧
    l <+: s.txbuf.bytes.take s.txlen.toNat

/-- R55, R56, R216: a step takes from RXFIFO's front no more than its ChanRead asks for (2 in HDR, RXN in DATA,
1 in CKS, none in any other phase), nothing when fewer are available (so no response and missing data flush
nothing), nothing when another agent moves; and at the end it adds exactly what DEVICE appends in that move. -/
def Obligations.ReceiveStreamIsNeverFlushed : Prop :=
  ∀ s t : State, step s = .next t → ∃ n : Nat, t.rxfifo = s.rxfifo.drop n ++ s.arriving ∧
    n ≤ bytesAsked s ∧ (s.rxfifo.length < bytesAsked s → n = 0) ∧ (s.framerWaits → n = 0)

/-- R30, R142: the outbound registers are written only in IDLE, so no second frame is accepted while a
cycle runs; RXHDR and RXN only in HDR, RXDATA only in DATA, RXCKS only in CKS. -/
def Obligations.FrameRegistersFollowTheAccessMatrix : Prop :=
  ∀ s t : State, step s = .next t →
    (s.phase ≠ .idle → t.txbuf = s.txbuf ∧ t.txlen = s.txlen ∧ t.tag = s.tag) ∧
    (s.phase ≠ .hdr → t.rxhdr = s.rxhdr ∧ t.rxn = s.rxn) ∧
    (s.phase ≠ .data → t.rxdata = s.rxdata) ∧ (s.phase ≠ .cks → t.rxcks = s.rxcks)

/-- R140: PHASE moves only along the table of control transfers (with the phase kept by another agent's
move, or by a channel that does not answer, log 7). -/
def Obligations.PhaseFollowsTheTransferTable : Prop :=
  ∀ s t : State, step s = .next t → t.phase = s.phase ∨ transition s.phase t.phase = true

/-- R191, R223: a pending interruption is cleared only when it is observed: the step is one of the six
that can observe it, raises Interrupted, pulses CANCEL_OUT and ends the cycle. -/
def Obligations.PendingInterruptionClearsOnlyWhenObserved : Prop :=
  ∀ s t : State, step s = .next t → s.intr = true → t.intr = false →
    s.phase ≠ .idle ∧ s.phase ≠ .decode ∧ t.phase = .idle ∧ t.cancelOut = s.cancelOut + 1 ∧
    ∃ cause, t.evlog = s.evlog ++ [.err ⟨.interrupted, cause, none, none, none⟩]

/-- R41, R142: a request stays at REQ, untaken, until the block is idle; only ACCEPT takes it, and then a
cycle has begun whose tag is the request's. -/
def Obligations.OnlyAcceptTakesAPresentedRequest : Prop :=
  ∀ s t : State, step s = .next t → ∀ r : Request, s.req = some r →
    t.req = some r ∨ (s.phase = .idle ∧ t.phase = .send ∧ t.tag = r.tag ∧ t.req = none)

/-- R130, R140, R228: from any phase of a cycle, when every primitive answers, at most seven steps of
the framer bring the block back to IDLE. That the framer moves seven times in a row is a premise on the
schedule (log 1). -/
def Obligations.EveryCycleEnds : Prop :=
  ∀ (s : State) (r : List Move), s.Inv → s.channelAnswers → s.schedule = List.replicate 7 .framer ++ r →
    ∃ k t, k ≤ 7 ∧ core.run k s = .next t ∧ t.phase = .idle

/-- R130, R139 (outcome Delivered): for every request and every reply of the announced length, 0 to 15
data bytes, verified or not, appended by the device after the frame went out, with no failure, no interruption and no backlog, the
cycle sends the stamped frame once, consumes the reply whole and does what the reply's operation does. The
time bound is counted in the model's own field (log 10); the order of the agents is a premise on the schedule
(log 1), and that no primitive fails is one on `chan` (log 6). -/
def Obligations.GoodCycleDeliversTheReply : Prop :=
  ∀ (s : State) (rq : Request) (h : Header) (d : List Byte) (c : Byte) (r : List Move),
    s.phase = .idle → s.req = some rq → s.intr = false → s.chan = [] → s.rxfifo = [] →
    d.length = h.cmd1.toNat % 16 →
    s.schedule = [.framer, .framer, .device ([h.cmd1, h.cmd2] ++ d ++ [c]), .framer, .framer] ++
      (if d = [] then [] else [.framer]) ++ [.framer, .framer, .framer] ++ r →
    ∃ (i : Instr) (u v t : State), decode s.cfg ⟨.reply, [h.cmd1, h.cmd2] ++ d ++ [c]⟩ = .ok i ∧
      core.run (if d = [] then 8 else 9) s = .next t ∧ exec i u = .next v ∧ u.cfg = s.cfg ∧ u.tag = rq.tag ∧
      u.evlog = s.evlog ∧ u.curTc = s.curTc ∧ u.curUbLocal = s.curUbLocal ∧ u.curUbVert = s.curUbVert ∧
      u.curState = s.curState ∧
      t.evlog = v.evlog ∧ t.curTc = v.curTc ∧ t.curUbLocal = v.curUbLocal ∧ t.curUbVert = v.curUbVert ∧
      t.curState = v.curState ∧
      t.phase = .idle ∧ t.req = none ∧ t.rxfifo = [] ∧ t.schedule = r ∧
      t.waitedMs = s.waitedMs + 2 * s.cfg.delay ∧
      ∃ (body : List Byte) (slot cks : Byte), rq.frame.bytes = body ++ [slot] ∧ cks.toNat = byteSum body % 256 ∧
        t.txstream = s.txstream ++ body ++ [cks]
end

