-- ==== Sys2Proof/Laws/Operands.lean ====
section
/-! SUPPORT. The small lemmas of Machine/Operands.lean and Machine/Codec.lean, so that no later proof
unfolds those definitions. -/

namespace Sys2Proof

/-! ### Nibbles -/

theorem hi_lt (b : Byte) : hi b < 16 := by unfold hi; have := b.isLt; omega

theorem lo_lt (b : Byte) : lo b < 16 := by unfold lo; omega

theorem hi_lo (b : Byte) : 16 * hi b + lo b = b.toNat := by unfold hi lo; omega

theorem toNat_nibbles {t u : Nat} (ht : t < 16) (hu : u < 16) : (nibbles t u).toNat = 16 * t + u := by
  simp only [nibbles, BitVec.toNat_ofNat]; omega

theorem hi_nibbles {t u : Nat} (ht : t < 16) (hu : u < 16) : hi (nibbles t u) = t := by
  rw [hi, toNat_nibbles ht hu]; omega

theorem lo_nibbles {t u : Nat} (ht : t < 16) (hu : u < 16) : lo (nibbles t u) = u := by
  rw [lo, toNat_nibbles ht hu]; omega

theorem nibbles_hi_lo (b : Byte) : nibbles (hi b) (lo b) = b := by
  apply BitVec.eq_of_toNat_eq
  rw [toNat_nibbles (hi_lt b) (lo_lt b), hi_lo]

/-! ### Headers, payloads, buffers -/

@[simp] theorem Header.length_bytes (h : Header) : h.bytes.length = 2 := rfl

@[simp] theorem Header.ofList_bytes_append (h : Header) (l : List Byte) : Header.ofList (h.bytes ++ l) = h := rfl

@[simp] theorem Header.ofList_bytes (h : Header) : Header.ofList h.bytes = h := rfl

@[simp] theorem Header.ofList_pair (a b : Byte) : Header.ofList [a, b] = ⟨a, b⟩ := rfl

@[simp] theorem Quad.length_bytes (q : Quad) : q.bytes.length = 4 := rfl

@[simp] theorem Quad.ofList_bytes (q : Quad) : Quad.ofList q.bytes = q := rfl

theorem Quad.bytes_ofList {l : List Byte} (h : l.length = 4) : (Quad.ofList l).bytes = l := by
  match l, h with
  | [_, _, _, _], _ => rfl

@[simp] theorem Hdr4.header_cmd1 (x : Hdr4) : x.header.cmd1.toNat = 16 * x.g.toNat + 4 :=
  toNat_nibbles x.g.isLt (by omega)

@[simp] theorem Hdr4.header_cmd2 (x : Hdr4) : x.header.cmd2 = x.c := rfl

/-- A header with length nibble 4 is its two fields. -/
theorem Hdr4.eq_header_iff (h : Header) (x : Hdr4) :
    h = x.header ↔ h.cmd1.toNat = 16 * x.g.toNat + 4 ∧ h.cmd2 = x.c := by
  constructor
  · rintro rfl; simp
  · rintro ⟨h1, h2⟩
    cases h
    simp only [Hdr4.header, Header.mk.injEq]
    exact ⟨BitVec.eq_of_toNat_eq (h1.trans (x.header_cmd1).symm), h2⟩

theorem Buffer.bytes_ofList {n : Nat} {l : List Byte} (h : l.length = n) : (Buffer.ofList n l).bytes = l := by
  simp [Buffer.ofList, ← h]

theorem splice_zero (l v : List Byte) : splice l 0 v = v ++ l.drop v.length := by simp [splice]

theorem length_splice {l v : List Byte} {i : Nat} (h : i + v.length ≤ l.length) :
    (splice l i v).length = l.length := by
  simp only [splice, List.length_append, List.length_take, List.length_drop]; omega

theorem splice_full {l v : List Byte} (h : v.length = l.length) : splice l 0 v = v := by simp [splice, h]

/-! ### The codec -/

namespace Codec

theorem len_lt (b : Byte) : len b < 16 := lo_lt b

@[simp] theorem len_header4 (x : Hdr4) : len x.header.cmd1 = 4 := by simp [len, lo, Nat.add_mod]

@[simp] theorem cksum_nil : cksum [] = 0 := rfl

theorem toNat_cksum (l : List Byte) : (cksum l).toNat = (l.map BitVec.toNat).sum % 256 := by
  simp [cksum]

theorem cksum_append (a b : List Byte) : cksum (a ++ b) = cksum a + cksum b := by
  simp [cksum, BitVec.ofNat_add]

theorem cksum_cons (x : Byte) (l : List Byte) : cksum (x :: l) = x + cksum l := by
  simp [cksum, BitVec.ofNat_add]

theorem stamp_append (body : List Byte) (c : Byte) : stamp (body ++ [c]) = body ++ [cksum body] := by
  simp [stamp]

theorem length_stamp {f : List Byte} (h : f ≠ []) : (stamp f).length = f.length := by
  rw [← List.dropLast_concat_getLast h, stamp_append]; simp

theorem stamp_stamp (f : List Byte) : stamp (stamp f) = stamp f := by simp [stamp]

theorem verify_iff (h : Header) (d : List Byte) (c : Byte) : verify h d c = true ↔ cksum (h.bytes ++ d) = c := by
  simp [verify]

theorem verify_cksum (h : Header) (d : List Byte) : verify h d (cksum (h.bytes ++ d)) = true := by
  simp [verify]

theorem flen_eq (b : Byte) : flen b = 3 + len b := by simp [flen, hdrLen, cksLen]; omega

theorem wf_iff (f : List Byte) : wf f = true ↔ 3 ≤ f.length ∧ f.length = 3 + len (f.getD 0 0) := by
  simp [wf, flen_eq]

/-- SPLIT gives back the parts of a frame that is put together from them. -/
theorem split_parts {h : Header} {d : List Byte} (c : Byte) (hd : d.length = len h.cmd1) :
    split (h.bytes ++ d ++ [c]) = some (h, d, c) := by
  have hw : wf (h.bytes ++ d ++ [c]) = true := by
    rw [wf_iff]; simp [Header.bytes, hd]; omega
  have hl : (h.bytes ++ d ++ [c]).getLastD 0 = c := by simp [List.getLastD_eq_getLast?]
  have hm : ((h.bytes ++ d ++ [c]).drop 2).dropLast = d := by simp [Header.bytes]
  rw [split, if_pos hw, hl, hm]
  rfl

/-- What SPLIT accepts is put together from the parts it gives. -/
theorem split_some {f : List Byte} {h : Header} {d : List Byte} {c : Byte} (hs : split f = some (h, d, c)) :
    f = h.bytes ++ d ++ [c] ∧ d.length = len h.cmd1 := by
  unfold split at hs
  split at hs
  · rename_i hw
    rw [wf_iff] at hw
    match f, hw with
    | a :: b :: x :: rest, hw =>
      obtain ⟨rfl, rfl, rfl⟩ := by simpa using hs
      refine ⟨?_, ?_⟩
      · have := List.dropLast_concat_getLast (l := x :: rest) (by simp)
        have hg : (x :: rest).getLast?.getD 0#8 = (x :: rest).getLast (by simp) := by
          rw [List.getLast?_eq_some_getLast (by simp)]; rfl
        simpa [Header.bytes, Header.ofList, hg] using this.symm
      · simp [Header.ofList] at hw ⊢
        omega
  · cases hs

theorem tcdec_le (b : Byte) : tcdec b ≤ 165 := by
  have := hi_lt b; have := lo_lt b; unfold tcdec; omega

theorem toNat_tcenc {v : Nat} (h : v ≤ 159) : (tcenc v).toNat = 16 * (v / 10) + v % 10 :=
  toNat_nibbles (by omega) (by omega)

/-- The decode of an encoded component is the component, on TCENC's whole domain. -/
theorem tcdec_tcenc {v : Nat} (h : v ≤ 159) : tcdec (tcenc v) = v := by
  rw [tcdec, tcenc, hi_nibbles (by omega) (by omega), lo_nibbles (by omega) (by omega)]; omega

/-- A canonical byte is the encoding of its decode. -/
theorem tcenc_tcdec {b : Byte} (h : lo b ≤ 9) : tcenc (tcdec b) = b := by
  have h1 : tcdec b / 10 = hi b := by unfold tcdec; omega
  have h2 : tcdec b % 10 = lo b := by unfold tcdec; omega
  rw [tcenc, h1, h2, nibbles_hi_lo]

theorem isubl_iff (P : Config) (h : Header) : isubl P h = true ↔ ∃ x ∈ P.ubLocalHdr, h = x.header := by
  simp [isubl, eq_comm]

theorem isubv_iff (P : Config) (h : Header) : isubv P h = true ↔ ∃ x ∈ P.ubVertHdr, h = x.header := by
  simp [isubv, eq_comm]

theorem isstatus_iff (P : Config) (h : Header) : isstatus P h = true ↔ h ∈ P.statusHdr := by
  simp [isstatus]

theorem istc_iff (P : Config) (h : Header) : istc P h = true ↔
    ∃ x ∈ [P.tcHdr.ltc, P.tcHdr.vtc, P.tcHdr.altLtc, P.tcHdr.timer1, P.tcHdr.timer2], h = x.header := by
  simp [istc, or_assoc]

/-- A reply of a timecode or userbits class has exactly four data bytes (R80). -/
theorem len_of_istc {P : Config} {h : Header} (ht : istc P h = true) : len h.cmd1 = 4 := by
  obtain ⟨x, -, rfl⟩ := (istc_iff P h).1 ht; simp

theorem len_of_isubl {P : Config} {h : Header} (ht : isubl P h = true) : len h.cmd1 = 4 := by
  obtain ⟨x, -, rfl⟩ := (isubl_iff P h).1 ht; simp

theorem len_of_isubv {P : Config} {h : Header} (ht : isubv P h = true) : len h.cmd1 = 4 := by
  obtain ⟨x, -, rfl⟩ := (isubv_iff P h).1 ht; simp

end Codec

end Sys2Proof
end

