-- ==== Sys2Proof/Laws/State.lean ====
section
/-! SUPPORT. One lemma per field per update of Machine/Ops.lean, so that no later proof unfolds a
record update. -/

namespace Sys2Proof.Machine.State

variable (s : State)

/-! ### `setPhase` -/

@[simp] theorem setPhase_cfg (p : Phase) : (s.setPhase p).cfg = s.cfg := rfl
@[simp] theorem setPhase_phase (p : Phase) : (s.setPhase p).phase = p := rfl
@[simp] theorem setPhase_txbuf (p : Phase) : (s.setPhase p).txbuf = s.txbuf := rfl
@[simp] theorem setPhase_txlen (p : Phase) : (s.setPhase p).txlen = s.txlen := rfl
@[simp] theorem setPhase_tag (p : Phase) : (s.setPhase p).tag = s.tag := rfl
@[simp] theorem setPhase_rxhdr (p : Phase) : (s.setPhase p).rxhdr = s.rxhdr := rfl
@[simp] theorem setPhase_rxn (p : Phase) : (s.setPhase p).rxn = s.rxn := rfl
@[simp] theorem setPhase_rxdata (p : Phase) : (s.setPhase p).rxdata = s.rxdata := rfl
@[simp] theorem setPhase_rxcks (p : Phase) : (s.setPhase p).rxcks = s.rxcks := rfl
@[simp] theorem setPhase_tmr (p : Phase) : (s.setPhase p).tmr = s.tmr := rfl
@[simp] theorem setPhase_curTc (p : Phase) : (s.setPhase p).curTc = s.curTc := rfl
@[simp] theorem setPhase_curUbLocal (p : Phase) : (s.setPhase p).curUbLocal = s.curUbLocal := rfl
@[simp] theorem setPhase_curUbVert (p : Phase) : (s.setPhase p).curUbVert = s.curUbVert := rfl
@[simp] theorem setPhase_curState (p : Phase) : (s.setPhase p).curState = s.curState := rfl
@[simp] theorem setPhase_evlog (p : Phase) : (s.setPhase p).evlog = s.evlog := rfl
@[simp] theorem setPhase_req (p : Phase) : (s.setPhase p).req = s.req := rfl
@[simp] theorem setPhase_intr (p : Phase) : (s.setPhase p).intr = s.intr := rfl
@[simp] theorem setPhase_cancelOut (p : Phase) : (s.setPhase p).cancelOut = s.cancelOut := rfl
@[simp] theorem setPhase_txstream (p : Phase) : (s.setPhase p).txstream = s.txstream := rfl
@[simp] theorem setPhase_rxfifo (p : Phase) : (s.setPhase p).rxfifo = s.rxfifo := rfl
@[simp] theorem setPhase_log (p : Phase) : (s.setPhase p).log = s.log := rfl
@[simp] theorem setPhase_hostq (p : Phase) : (s.setPhase p).hostq = s.hostq := rfl
@[simp] theorem setPhase_commandsIn (p : Phase) : (s.setPhase p).commandsIn = s.commandsIn := rfl
@[simp] theorem setPhase_latestTc (p : Phase) : (s.setPhase p).latestTc = s.latestTc := rfl
@[simp] theorem setPhase_latestState (p : Phase) : (s.setPhase p).latestState = s.latestState := rfl
@[simp] theorem setPhase_lastVi (p : Phase) : (s.setPhase p).lastVi = s.lastVi := rfl
@[simp] theorem setPhase_viStream (p : Phase) : (s.setPhase p).viStream = s.viStream := rfl
@[simp] theorem setPhase_subscriptions (p : Phase) : (s.setPhase p).subscriptions = s.subscriptions := rfl
@[simp] theorem setPhase_hubPos (p : Phase) : (s.setPhase p).hubPos = s.hubPos := rfl
@[simp] theorem setPhase_draws (p : Phase) : (s.setPhase p).draws = s.draws := rfl
@[simp] theorem setPhase_chan (p : Phase) : (s.setPhase p).chan = s.chan := rfl
@[simp] theorem setPhase_result (p : Phase) : (s.setPhase p).result = s.result := rfl
@[simp] theorem setPhase_waitedMs (p : Phase) : (s.setPhase p).waitedMs = s.waitedMs := rfl
@[simp] theorem setPhase_schedule (p : Phase) : (s.setPhase p).schedule = s.schedule := rfl

/-! ### `emit` -/

@[simp] theorem emit_cfg (e : Event) : (s.emit e).cfg = s.cfg := rfl
@[simp] theorem emit_phase (e : Event) : (s.emit e).phase = s.phase := rfl
@[simp] theorem emit_txbuf (e : Event) : (s.emit e).txbuf = s.txbuf := rfl
@[simp] theorem emit_txlen (e : Event) : (s.emit e).txlen = s.txlen := rfl
@[simp] theorem emit_tag (e : Event) : (s.emit e).tag = s.tag := rfl
@[simp] theorem emit_rxhdr (e : Event) : (s.emit e).rxhdr = s.rxhdr := rfl
@[simp] theorem emit_rxn (e : Event) : (s.emit e).rxn = s.rxn := rfl
@[simp] theorem emit_rxdata (e : Event) : (s.emit e).rxdata = s.rxdata := rfl
@[simp] theorem emit_rxcks (e : Event) : (s.emit e).rxcks = s.rxcks := rfl
@[simp] theorem emit_tmr (e : Event) : (s.emit e).tmr = s.tmr := rfl
@[simp] theorem emit_curTc (e : Event) : (s.emit e).curTc = s.curTc := rfl
@[simp] theorem emit_curUbLocal (e : Event) : (s.emit e).curUbLocal = s.curUbLocal := rfl
@[simp] theorem emit_curUbVert (e : Event) : (s.emit e).curUbVert = s.curUbVert := rfl
@[simp] theorem emit_curState (e : Event) : (s.emit e).curState = s.curState := rfl
@[simp] theorem emit_evlog (e : Event) : (s.emit e).evlog = s.evlog ++ [e] := rfl
@[simp] theorem emit_req (e : Event) : (s.emit e).req = s.req := rfl
@[simp] theorem emit_intr (e : Event) : (s.emit e).intr = s.intr := rfl
@[simp] theorem emit_cancelOut (e : Event) : (s.emit e).cancelOut = s.cancelOut := rfl
@[simp] theorem emit_txstream (e : Event) : (s.emit e).txstream = s.txstream := rfl
@[simp] theorem emit_rxfifo (e : Event) : (s.emit e).rxfifo = s.rxfifo := rfl
@[simp] theorem emit_log (e : Event) : (s.emit e).log = s.log := rfl
@[simp] theorem emit_hostq (e : Event) : (s.emit e).hostq = s.hostq := rfl
@[simp] theorem emit_commandsIn (e : Event) : (s.emit e).commandsIn = s.commandsIn := rfl
@[simp] theorem emit_latestTc (e : Event) : (s.emit e).latestTc = s.latestTc := rfl
@[simp] theorem emit_latestState (e : Event) : (s.emit e).latestState = s.latestState := rfl
@[simp] theorem emit_lastVi (e : Event) : (s.emit e).lastVi = s.lastVi := rfl
@[simp] theorem emit_viStream (e : Event) : (s.emit e).viStream = s.viStream := rfl
@[simp] theorem emit_subscriptions (e : Event) : (s.emit e).subscriptions = s.subscriptions := rfl
@[simp] theorem emit_hubPos (e : Event) : (s.emit e).hubPos = s.hubPos := rfl
@[simp] theorem emit_draws (e : Event) : (s.emit e).draws = s.draws := rfl
@[simp] theorem emit_chan (e : Event) : (s.emit e).chan = s.chan := rfl
@[simp] theorem emit_result (e : Event) : (s.emit e).result = s.result := rfl
@[simp] theorem emit_waitedMs (e : Event) : (s.emit e).waitedMs = s.waitedMs := rfl
@[simp] theorem emit_schedule (e : Event) : (s.emit e).schedule = s.schedule := rfl

/-! ### `debugLog` -/

@[simp] theorem debugLog_cfg (l : LogLine) : (s.debugLog l).cfg = s.cfg := rfl
@[simp] theorem debugLog_phase (l : LogLine) : (s.debugLog l).phase = s.phase := rfl
@[simp] theorem debugLog_txbuf (l : LogLine) : (s.debugLog l).txbuf = s.txbuf := rfl
@[simp] theorem debugLog_txlen (l : LogLine) : (s.debugLog l).txlen = s.txlen := rfl
@[simp] theorem debugLog_tag (l : LogLine) : (s.debugLog l).tag = s.tag := rfl
@[simp] theorem debugLog_rxhdr (l : LogLine) : (s.debugLog l).rxhdr = s.rxhdr := rfl
@[simp] theorem debugLog_rxn (l : LogLine) : (s.debugLog l).rxn = s.rxn := rfl
@[simp] theorem debugLog_rxdata (l : LogLine) : (s.debugLog l).rxdata = s.rxdata := rfl
@[simp] theorem debugLog_rxcks (l : LogLine) : (s.debugLog l).rxcks = s.rxcks := rfl
@[simp] theorem debugLog_tmr (l : LogLine) : (s.debugLog l).tmr = s.tmr := rfl
@[simp] theorem debugLog_curTc (l : LogLine) : (s.debugLog l).curTc = s.curTc := rfl
@[simp] theorem debugLog_curUbLocal (l : LogLine) : (s.debugLog l).curUbLocal = s.curUbLocal := rfl
@[simp] theorem debugLog_curUbVert (l : LogLine) : (s.debugLog l).curUbVert = s.curUbVert := rfl
@[simp] theorem debugLog_curState (l : LogLine) : (s.debugLog l).curState = s.curState := rfl
@[simp] theorem debugLog_evlog (l : LogLine) : (s.debugLog l).evlog = s.evlog := rfl
@[simp] theorem debugLog_req (l : LogLine) : (s.debugLog l).req = s.req := rfl
@[simp] theorem debugLog_intr (l : LogLine) : (s.debugLog l).intr = s.intr := rfl
@[simp] theorem debugLog_cancelOut (l : LogLine) : (s.debugLog l).cancelOut = s.cancelOut := rfl
@[simp] theorem debugLog_txstream (l : LogLine) : (s.debugLog l).txstream = s.txstream := rfl
@[simp] theorem debugLog_rxfifo (l : LogLine) : (s.debugLog l).rxfifo = s.rxfifo := rfl
@[simp] theorem debugLog_log (l : LogLine) : (s.debugLog l).log = if s.cfg.debug then s.log ++ [l] else s.log := rfl
@[simp] theorem debugLog_hostq (l : LogLine) : (s.debugLog l).hostq = s.hostq := rfl
@[simp] theorem debugLog_commandsIn (l : LogLine) : (s.debugLog l).commandsIn = s.commandsIn := rfl
@[simp] theorem debugLog_latestTc (l : LogLine) : (s.debugLog l).latestTc = s.latestTc := rfl
@[simp] theorem debugLog_latestState (l : LogLine) : (s.debugLog l).latestState = s.latestState := rfl
@[simp] theorem debugLog_lastVi (l : LogLine) : (s.debugLog l).lastVi = s.lastVi := rfl
@[simp] theorem debugLog_viStream (l : LogLine) : (s.debugLog l).viStream = s.viStream := rfl
@[simp] theorem debugLog_subscriptions (l : LogLine) : (s.debugLog l).subscriptions = s.subscriptions := rfl
@[simp] theorem debugLog_hubPos (l : LogLine) : (s.debugLog l).hubPos = s.hubPos := rfl
@[simp] theorem debugLog_draws (l : LogLine) : (s.debugLog l).draws = s.draws := rfl
@[simp] theorem debugLog_chan (l : LogLine) : (s.debugLog l).chan = s.chan := rfl
@[simp] theorem debugLog_result (l : LogLine) : (s.debugLog l).result = s.result := rfl
@[simp] theorem debugLog_waitedMs (l : LogLine) : (s.debugLog l).waitedMs = s.waitedMs := rfl
@[simp] theorem debugLog_schedule (l : LogLine) : (s.debugLog l).schedule = s.schedule := rfl

/-! ### `errorLog` -/

@[simp] theorem errorLog_cfg (e : ErrorRecord) : (s.errorLog e).cfg = s.cfg := rfl
@[simp] theorem errorLog_phase (e : ErrorRecord) : (s.errorLog e).phase = s.phase := rfl
@[simp] theorem errorLog_txbuf (e : ErrorRecord) : (s.errorLog e).txbuf = s.txbuf := rfl
@[simp] theorem errorLog_txlen (e : ErrorRecord) : (s.errorLog e).txlen = s.txlen := rfl
@[simp] theorem errorLog_tag (e : ErrorRecord) : (s.errorLog e).tag = s.tag := rfl
@[simp] theorem errorLog_rxhdr (e : ErrorRecord) : (s.errorLog e).rxhdr = s.rxhdr := rfl
@[simp] theorem errorLog_rxn (e : ErrorRecord) : (s.errorLog e).rxn = s.rxn := rfl
@[simp] theorem errorLog_rxdata (e : ErrorRecord) : (s.errorLog e).rxdata = s.rxdata := rfl
@[simp] theorem errorLog_rxcks (e : ErrorRecord) : (s.errorLog e).rxcks = s.rxcks := rfl
@[simp] theorem errorLog_tmr (e : ErrorRecord) : (s.errorLog e).tmr = s.tmr := rfl
@[simp] theorem errorLog_curTc (e : ErrorRecord) : (s.errorLog e).curTc = s.curTc := rfl
@[simp] theorem errorLog_curUbLocal (e : ErrorRecord) : (s.errorLog e).curUbLocal = s.curUbLocal := rfl
@[simp] theorem errorLog_curUbVert (e : ErrorRecord) : (s.errorLog e).curUbVert = s.curUbVert := rfl
@[simp] theorem errorLog_curState (e : ErrorRecord) : (s.errorLog e).curState = s.curState := rfl
@[simp] theorem errorLog_evlog (e : ErrorRecord) : (s.errorLog e).evlog = s.evlog := rfl
@[simp] theorem errorLog_req (e : ErrorRecord) : (s.errorLog e).req = s.req := rfl
@[simp] theorem errorLog_intr (e : ErrorRecord) : (s.errorLog e).intr = s.intr := rfl
@[simp] theorem errorLog_cancelOut (e : ErrorRecord) : (s.errorLog e).cancelOut = s.cancelOut := rfl
@[simp] theorem errorLog_txstream (e : ErrorRecord) : (s.errorLog e).txstream = s.txstream := rfl
@[simp] theorem errorLog_rxfifo (e : ErrorRecord) : (s.errorLog e).rxfifo = s.rxfifo := rfl
@[simp] theorem errorLog_log (e : ErrorRecord) : (s.errorLog e).log = if Config.errorLogGated && !s.cfg.debug then s.log else s.log ++ [.error e] := rfl
@[simp] theorem errorLog_hostq (e : ErrorRecord) : (s.errorLog e).hostq = s.hostq := rfl
@[simp] theorem errorLog_commandsIn (e : ErrorRecord) : (s.errorLog e).commandsIn = s.commandsIn := rfl
@[simp] theorem errorLog_latestTc (e : ErrorRecord) : (s.errorLog e).latestTc = s.latestTc := rfl
@[simp] theorem errorLog_latestState (e : ErrorRecord) : (s.errorLog e).latestState = s.latestState := rfl
@[simp] theorem errorLog_lastVi (e : ErrorRecord) : (s.errorLog e).lastVi = s.lastVi := rfl
@[simp] theorem errorLog_viStream (e : ErrorRecord) : (s.errorLog e).viStream = s.viStream := rfl
@[simp] theorem errorLog_subscriptions (e : ErrorRecord) : (s.errorLog e).subscriptions = s.subscriptions := rfl
@[simp] theorem errorLog_hubPos (e : ErrorRecord) : (s.errorLog e).hubPos = s.hubPos := rfl
@[simp] theorem errorLog_draws (e : ErrorRecord) : (s.errorLog e).draws = s.draws := rfl
@[simp] theorem errorLog_chan (e : ErrorRecord) : (s.errorLog e).chan = s.chan := rfl
@[simp] theorem errorLog_result (e : ErrorRecord) : (s.errorLog e).result = s.result := rfl
@[simp] theorem errorLog_waitedMs (e : ErrorRecord) : (s.errorLog e).waitedMs = s.waitedMs := rfl
@[simp] theorem errorLog_schedule (e : ErrorRecord) : (s.errorLog e).schedule = s.schedule := rfl

/-! ### `clearIntr` -/

@[simp] theorem clearIntr_cfg : (s.clearIntr).cfg = s.cfg := rfl
@[simp] theorem clearIntr_phase : (s.clearIntr).phase = s.phase := rfl
@[simp] theorem clearIntr_txbuf : (s.clearIntr).txbuf = s.txbuf := rfl
@[simp] theorem clearIntr_txlen : (s.clearIntr).txlen = s.txlen := rfl
@[simp] theorem clearIntr_tag : (s.clearIntr).tag = s.tag := rfl
@[simp] theorem clearIntr_rxhdr : (s.clearIntr).rxhdr = s.rxhdr := rfl
@[simp] theorem clearIntr_rxn : (s.clearIntr).rxn = s.rxn := rfl
@[simp] theorem clearIntr_rxdata : (s.clearIntr).rxdata = s.rxdata := rfl
@[simp] theorem clearIntr_rxcks : (s.clearIntr).rxcks = s.rxcks := rfl
@[simp] theorem clearIntr_tmr : (s.clearIntr).tmr = s.tmr := rfl
@[simp] theorem clearIntr_curTc : (s.clearIntr).curTc = s.curTc := rfl
@[simp] theorem clearIntr_curUbLocal : (s.clearIntr).curUbLocal = s.curUbLocal := rfl
@[simp] theorem clearIntr_curUbVert : (s.clearIntr).curUbVert = s.curUbVert := rfl
@[simp] theorem clearIntr_curState : (s.clearIntr).curState = s.curState := rfl
@[simp] theorem clearIntr_evlog : (s.clearIntr).evlog = s.evlog := rfl
@[simp] theorem clearIntr_req : (s.clearIntr).req = s.req := rfl
@[simp] theorem clearIntr_intr : (s.clearIntr).intr = false := rfl
@[simp] theorem clearIntr_cancelOut : (s.clearIntr).cancelOut = s.cancelOut := rfl
@[simp] theorem clearIntr_txstream : (s.clearIntr).txstream = s.txstream := rfl
@[simp] theorem clearIntr_rxfifo : (s.clearIntr).rxfifo = s.rxfifo := rfl
@[simp] theorem clearIntr_log : (s.clearIntr).log = s.log := rfl
@[simp] theorem clearIntr_hostq : (s.clearIntr).hostq = s.hostq := rfl
@[simp] theorem clearIntr_commandsIn : (s.clearIntr).commandsIn = s.commandsIn := rfl
@[simp] theorem clearIntr_latestTc : (s.clearIntr).latestTc = s.latestTc := rfl
@[simp] theorem clearIntr_latestState : (s.clearIntr).latestState = s.latestState := rfl
@[simp] theorem clearIntr_lastVi : (s.clearIntr).lastVi = s.lastVi := rfl
@[simp] theorem clearIntr_viStream : (s.clearIntr).viStream = s.viStream := rfl
@[simp] theorem clearIntr_subscriptions : (s.clearIntr).subscriptions = s.subscriptions := rfl
@[simp] theorem clearIntr_hubPos : (s.clearIntr).hubPos = s.hubPos := rfl
@[simp] theorem clearIntr_draws : (s.clearIntr).draws = s.draws := rfl
@[simp] theorem clearIntr_chan : (s.clearIntr).chan = s.chan := rfl
@[simp] theorem clearIntr_result : (s.clearIntr).result = s.result := rfl
@[simp] theorem clearIntr_waitedMs : (s.clearIntr).waitedMs = s.waitedMs := rfl
@[simp] theorem clearIntr_schedule : (s.clearIntr).schedule = s.schedule := rfl

/-! ### `pulseCancel` -/

@[simp] theorem pulseCancel_cfg : (s.pulseCancel).cfg = s.cfg := rfl
@[simp] theorem pulseCancel_phase : (s.pulseCancel).phase = s.phase := rfl
@[simp] theorem pulseCancel_txbuf : (s.pulseCancel).txbuf = s.txbuf := rfl
@[simp] theorem pulseCancel_txlen : (s.pulseCancel).txlen = s.txlen := rfl
@[simp] theorem pulseCancel_tag : (s.pulseCancel).tag = s.tag := rfl
@[simp] theorem pulseCancel_rxhdr : (s.pulseCancel).rxhdr = s.rxhdr := rfl
@[simp] theorem pulseCancel_rxn : (s.pulseCancel).rxn = s.rxn := rfl
@[simp] theorem pulseCancel_rxdata : (s.pulseCancel).rxdata = s.rxdata := rfl
@[simp] theorem pulseCancel_rxcks : (s.pulseCancel).rxcks = s.rxcks := rfl
@[simp] theorem pulseCancel_tmr : (s.pulseCancel).tmr = s.tmr := rfl
@[simp] theorem pulseCancel_curTc : (s.pulseCancel).curTc = s.curTc := rfl
@[simp] theorem pulseCancel_curUbLocal : (s.pulseCancel).curUbLocal = s.curUbLocal := rfl
@[simp] theorem pulseCancel_curUbVert : (s.pulseCancel).curUbVert = s.curUbVert := rfl
@[simp] theorem pulseCancel_curState : (s.pulseCancel).curState = s.curState := rfl
@[simp] theorem pulseCancel_evlog : (s.pulseCancel).evlog = s.evlog := rfl
@[simp] theorem pulseCancel_req : (s.pulseCancel).req = s.req := rfl
@[simp] theorem pulseCancel_intr : (s.pulseCancel).intr = s.intr := rfl
@[simp] theorem pulseCancel_cancelOut : (s.pulseCancel).cancelOut = s.cancelOut + 1 := rfl
@[simp] theorem pulseCancel_txstream : (s.pulseCancel).txstream = s.txstream := rfl
@[simp] theorem pulseCancel_rxfifo : (s.pulseCancel).rxfifo = s.rxfifo := rfl
@[simp] theorem pulseCancel_log : (s.pulseCancel).log = s.log := rfl
@[simp] theorem pulseCancel_hostq : (s.pulseCancel).hostq = s.hostq := rfl
@[simp] theorem pulseCancel_commandsIn : (s.pulseCancel).commandsIn = s.commandsIn := rfl
@[simp] theorem pulseCancel_latestTc : (s.pulseCancel).latestTc = s.latestTc := rfl
@[simp] theorem pulseCancel_latestState : (s.pulseCancel).latestState = s.latestState := rfl
@[simp] theorem pulseCancel_lastVi : (s.pulseCancel).lastVi = s.lastVi := rfl
@[simp] theorem pulseCancel_viStream : (s.pulseCancel).viStream = s.viStream := rfl
@[simp] theorem pulseCancel_subscriptions : (s.pulseCancel).subscriptions = s.subscriptions := rfl
@[simp] theorem pulseCancel_hubPos : (s.pulseCancel).hubPos = s.hubPos := rfl
@[simp] theorem pulseCancel_draws : (s.pulseCancel).draws = s.draws := rfl
@[simp] theorem pulseCancel_chan : (s.pulseCancel).chan = s.chan := rfl
@[simp] theorem pulseCancel_result : (s.pulseCancel).result = s.result := rfl
@[simp] theorem pulseCancel_waitedMs : (s.pulseCancel).waitedMs = s.waitedMs := rfl
@[simp] theorem pulseCancel_schedule : (s.pulseCancel).schedule = s.schedule := rfl

/-! ### `answer` -/

@[simp] theorem answer_cfg (v : CodecValue) : (s.answer v).cfg = s.cfg := rfl
@[simp] theorem answer_phase (v : CodecValue) : (s.answer v).phase = s.phase := rfl
@[simp] theorem answer_txbuf (v : CodecValue) : (s.answer v).txbuf = s.txbuf := rfl
@[simp] theorem answer_txlen (v : CodecValue) : (s.answer v).txlen = s.txlen := rfl
@[simp] theorem answer_tag (v : CodecValue) : (s.answer v).tag = s.tag := rfl
@[simp] theorem answer_rxhdr (v : CodecValue) : (s.answer v).rxhdr = s.rxhdr := rfl
@[simp] theorem answer_rxn (v : CodecValue) : (s.answer v).rxn = s.rxn := rfl
@[simp] theorem answer_rxdata (v : CodecValue) : (s.answer v).rxdata = s.rxdata := rfl
@[simp] theorem answer_rxcks (v : CodecValue) : (s.answer v).rxcks = s.rxcks := rfl
@[simp] theorem answer_tmr (v : CodecValue) : (s.answer v).tmr = s.tmr := rfl
@[simp] theorem answer_curTc (v : CodecValue) : (s.answer v).curTc = s.curTc := rfl
@[simp] theorem answer_curUbLocal (v : CodecValue) : (s.answer v).curUbLocal = s.curUbLocal := rfl
@[simp] theorem answer_curUbVert (v : CodecValue) : (s.answer v).curUbVert = s.curUbVert := rfl
@[simp] theorem answer_curState (v : CodecValue) : (s.answer v).curState = s.curState := rfl
@[simp] theorem answer_evlog (v : CodecValue) : (s.answer v).evlog = s.evlog := rfl
@[simp] theorem answer_req (v : CodecValue) : (s.answer v).req = s.req := rfl
@[simp] theorem answer_intr (v : CodecValue) : (s.answer v).intr = s.intr := rfl
@[simp] theorem answer_cancelOut (v : CodecValue) : (s.answer v).cancelOut = s.cancelOut := rfl
@[simp] theorem answer_txstream (v : CodecValue) : (s.answer v).txstream = s.txstream := rfl
@[simp] theorem answer_rxfifo (v : CodecValue) : (s.answer v).rxfifo = s.rxfifo := rfl
@[simp] theorem answer_log (v : CodecValue) : (s.answer v).log = s.log := rfl
@[simp] theorem answer_hostq (v : CodecValue) : (s.answer v).hostq = s.hostq := rfl
@[simp] theorem answer_commandsIn (v : CodecValue) : (s.answer v).commandsIn = s.commandsIn := rfl
@[simp] theorem answer_latestTc (v : CodecValue) : (s.answer v).latestTc = s.latestTc := rfl
@[simp] theorem answer_latestState (v : CodecValue) : (s.answer v).latestState = s.latestState := rfl
@[simp] theorem answer_lastVi (v : CodecValue) : (s.answer v).lastVi = s.lastVi := rfl
@[simp] theorem answer_viStream (v : CodecValue) : (s.answer v).viStream = s.viStream := rfl
@[simp] theorem answer_subscriptions (v : CodecValue) : (s.answer v).subscriptions = s.subscriptions := rfl
@[simp] theorem answer_hubPos (v : CodecValue) : (s.answer v).hubPos = s.hubPos := rfl
@[simp] theorem answer_draws (v : CodecValue) : (s.answer v).draws = s.draws := rfl
@[simp] theorem answer_chan (v : CodecValue) : (s.answer v).chan = s.chan := rfl
@[simp] theorem answer_result (v : CodecValue) : (s.answer v).result = some v := rfl
@[simp] theorem answer_waitedMs (v : CodecValue) : (s.answer v).waitedMs = s.waitedMs := rfl
@[simp] theorem answer_schedule (v : CodecValue) : (s.answer v).schedule = s.schedule := rfl

end Sys2Proof.Machine.State
end

