-- ==== Sys2Proof/Laws/Ops.lean ====
section
/-! SUPPORT. One lemma per shared operation of Machine/Ops.lean that says everything it can do; callers
cite it and do not unfold the operation. -/

namespace Sys2Proof.Machine

/-! ### Frame buffers -/

/-- ACCEPT's write: the front of TXBUF replaced, the rest kept. -/
theorem memWrite_txbuf (s : State) {v : List Byte} (h : v.length ≤ 18) :
    memWrite s .txbuf 0 v = some { s with txbuf := Buffer.ofList 18 (v ++ s.txbuf.bytes.drop v.length) } := by
  simp [memWrite, bufBytes, setBuf, splice_zero, s.txbuf.len, h]

/-- RDDATA's write: the front of RXDATA replaced, the rest kept. -/
theorem memWrite_rxdata (s : State) {v : List Byte} (h : v.length ≤ 15) :
    memWrite s .rxdata 0 v = some { s with rxdata := Buffer.ofList 15 (v ++ s.rxdata.bytes.drop v.length) } := by
  simp [memWrite, bufBytes, setBuf, splice_zero, s.rxdata.len, h]

/-- RDHDR's write. -/
theorem memWrite_rxhdr (s : State) (a b : Byte) :
    memWrite s .rxhdr 0 [a, b] = some { s with rxhdr := ⟨a, b⟩ } := by
  simp [memWrite, bufBytes, setBuf, splice_full, Header.bytes]

/-- The bytes of a buffer after a write of its front. -/
theorem Buffer.bytes_front {n : Nat} (b : Buffer n) {v : List Byte} (h : v.length ≤ n) :
    (Buffer.ofList n (v ++ b.bytes.drop v.length)).bytes = v ++ b.bytes.drop v.length :=
  Buffer.bytes_ofList (by simp [b.len]; omega)

/-- SEND's read. -/
theorem memRead_txbuf (s : State) {n : Nat} (h : n ≤ 18) :
    memRead s .txbuf 0 n = some (s.txbuf.bytes.take n) := by
  simp [memRead, bufBytes, s.txbuf.len, h]

/-- PARSE's reads. -/
theorem memRead_rxhdr (s : State) : memRead s .rxhdr 0 2 = some s.rxhdr.bytes := by
  simp [memRead, bufBytes, Header.bytes]

theorem memRead_rxdata (s : State) (n : BitVec 4) :
    memRead s .rxdata 0 n.toNat = some (s.rxdata.bytes.take n.toNat) := by
  have := n.isLt
  simp [memRead, bufBytes, s.rxdata.len]; omega

@[simp] theorem withBuf_some {α : Type} (a : α) (k : α → Result) : withBuf (some a) k = k a := rfl

@[simp] theorem withBuf_none {α : Type} (k : α → Result) : withBuf none k = .fault .bufferRange := rfl

/-! ### Taking an exception -/

/-- Everything `raise` does (R193). -/
theorem raised_raiseError (s : State) (k : ErrKind) (c : Option Cause) :
    raised s (raiseError s k c) (errorRecord s k c) := by
  have hk : (errorRecord s k c).kind = k := by cases k <;> rfl
  unfold raised raiseError
  rw [hk]
  refine ⟨?_, ?_⟩
  · by_cases hi : k = .interrupted <;> cases hg : Config.errorLogGated <;> cases hd : s.cfg.debug <;>
      simp [hi, hg, hd, State.emit, State.errorLog, State.setPhase, State.pulseCancel]
  · by_cases hi : k = .interrupted <;>
      simp [hi, State.emit, State.errorLog, State.setPhase, State.pulseCancel]

/-- What a failed primitive leads to, in `raised` form (R56). -/
theorem raisedByCause_channelFailed (c : Cause) (s : State) : raisedByCause s (channelFailed c s) c := by
  cases c with
  | io n => exact raised_raiseError s .ioFailure (some (.io n))
  | interruption n => exact raised_raiseError s.clearIntr .interrupted (some (.interruption n))

/-! ### The channel -/

theorem chanWrite_ok {s : State} (h : s.okAnswers 1) (f : List Byte) :
    chanWrite s f = .ok () { s with chan := s.chan.drop 1, txstream := s.txstream ++ f } := by
  unfold chanWrite
  match hc : s.chan with
  | [] => cases s; simp_all
  | a :: r => have := h a (by simp [hc]); subst this; simp

theorem chanAvail_ok {s : State} {n : Nat} (hn : 0 < n) (h : s.okAnswers n) :
    chanAvail s = .ok s.rxfifo.length { s with chan := s.chan.drop 1 } := by
  unfold chanAvail
  match hc : s.chan with
  | [] => cases s; simp_all
  | a :: r =>
    have := h a (by cases n <;> simp_all)
    subst this; simp

theorem chanRead_ok {s : State} {n : Nat} (h : s.okAnswers 1) (hn : n ≤ s.rxfifo.length) :
    chanRead s n = .ok (s.rxfifo.take n) { s with chan := s.chan.drop 1, rxfifo := s.rxfifo.drop n } := by
  unfold chanRead
  match hc : s.chan with
  | [] => cases s; simp_all
  | a :: r => have := h a (by simp [hc]); subst this; simp [hn]

/-- Once the first of two answers is used, the second is the next one. -/
theorem okAnswers_tail {s : State} (h : s.okAnswers 2) (t : State) (ht : t.chan = s.chan.drop 1) : t.okAnswers 1 := by
  intro a ha
  rw [ht] at ha
  apply h
  match hc : s.chan with
  | [] => simp_all
  | b :: r => cases r <;> simp_all

/-- Everything ChanWrite can do. -/
theorem chanWrite_cases (s : State) (f : List Byte) :
    (∃ r, r <:+ s.chan ∧ chanWrite s f = .ok () { s with chan := r, txstream := s.txstream ++ f }) ∨
    (∃ c r k, r <:+ s.chan ∧ chanWrite s f = .failed c { s with chan := r, txstream := s.txstream ++ f.take k }) ∨
    (ChanAnswer.never ∈ s.chan ∧ chanWrite s f = .never) := by
  unfold chanWrite
  match hc : s.chan with
  | [] => exact .inl ⟨[], List.suffix_rfl, by cases s; simp_all⟩
  | .ok :: r => exact .inl ⟨r, List.suffix_cons _ _, rfl⟩
  | .failed c k :: r => exact .inr (.inl ⟨c, r, k, List.suffix_cons _ _, rfl⟩)
  | .never :: r => exact .inr (.inr ⟨by simp, rfl⟩)

/-- Everything ChanAvail can do. -/
theorem chanAvail_cases (s : State) :
    (∃ r, r <:+ s.chan ∧ chanAvail s = .ok s.rxfifo.length { s with chan := r }) ∨
    (∃ c r, r <:+ s.chan ∧ chanAvail s = .failed c { s with chan := r }) ∨
    (ChanAnswer.never ∈ s.chan ∧ chanAvail s = .never) := by
  unfold chanAvail
  match hc : s.chan with
  | [] => exact .inl ⟨[], List.suffix_rfl, by cases s; simp_all⟩
  | .ok :: r => exact .inl ⟨r, List.suffix_cons _ _, rfl⟩
  | .failed c k :: r => exact .inr (.inl ⟨c, r, List.suffix_cons _ _, rfl⟩)
  | .never :: r => exact .inr (.inr ⟨by simp, rfl⟩)

/-- Everything ChanRead can do when enough bytes are available. -/
theorem chanRead_cases (s : State) {n : Nat} (hn : n ≤ s.rxfifo.length) :
    (∃ r, r <:+ s.chan ∧ chanRead s n = .ok (s.rxfifo.take n) { s with chan := r, rxfifo := s.rxfifo.drop n }) ∨
    (∃ c r m, r <:+ s.chan ∧ m ≤ n ∧ chanRead s n = .failed c { s with chan := r, rxfifo := s.rxfifo.drop m }) ∨
    (ChanAnswer.never ∈ s.chan ∧ chanRead s n = .never) := by
  unfold chanRead
  match hc : s.chan with
  | [] => exact .inl ⟨[], List.suffix_rfl, by cases s; simp_all⟩
  | .ok :: r => exact .inl ⟨r, List.suffix_cons _ _, by simp [hn]⟩
  | .failed c k :: r => exact .inr (.inl ⟨c, r, min k n, List.suffix_cons _ _, Nat.min_le_right _ _, rfl⟩)
  | .never :: r => exact .inr (.inr ⟨by simp, rfl⟩)

@[simp] theorem withChan_ok {α : Type} (s s' : State) (v : α) (k : α → State → Result) :
    withChan s (.ok v s') k = k v s' := rfl

@[simp] theorem withChan_failed {α : Type} (s s' : State) (c : Cause) (k : α → State → Result) :
    withChan s (.failed c s') k = .next (channelFailed c s') := rfl

@[simp] theorem withChan_never {α : Type} (s : State) (k : α → State → Result) : withChan s .never k = .next s := rfl

/-! ### The delay -/

theorem wait_idle {s : State} (h : s.intr = false) :
    wait s = .ok { s with tmr := .expired, waitedMs := s.waitedMs + s.cfg.delay } := by
  simp [wait, h]

theorem wait_pending {s : State} (h : s.intr = true) :
    wait s = .interrupted { s.clearIntr with tmr := .expired } := by
  simp [wait, h]

end Sys2Proof.Machine
end

