-- ==== Sys2Proof/Laws/Framer.lean ====
section
/-! SUPPORT. What each framer step can do: one inversion lemma per step, guards included, so that no
later proof unfolds a step. -/

namespace Sys2Proof.Machine

/-- Everything ACCEPT can do (R131). -/
theorem execAccept_cases (s : State) :
    (s.req = none ∧ execAccept s = .next { s with phase := .idle }) ∨
    (∃ r, s.req = some r ∧ execAccept s = .next { s with
      txbuf := Buffer.ofList 18 (Codec.stamp r.frame.bytes ++ s.txbuf.bytes.drop r.frame.bytes.length)
      txlen := BitVec.ofNat 5 r.frame.bytes.length
      tag := r.tag
      req := none
      phase := .send }) := by
  unfold execAccept
  split
  · rename_i hr
    exact .inl ⟨hr, rfl⟩
  · rename_i r hr
    have hl : (Codec.stamp r.frame.bytes).length = r.frame.bytes.length :=
      Codec.length_stamp (List.ne_nil_of_length_pos r.frame.pos)
    refine .inr ⟨r, hr, ?_⟩
    rw [memWrite_txbuf s (hl ▸ r.frame.le), withBuf_some, hl]

/-- SEND goes on only with TXLEN inside TXBUF (R51). -/
theorem execSend_bound {s t : State} (h : execSend s = .next t) : s.txlen.toNat ≤ 18 := by
  refine Classical.byContradiction fun hc => ?_
  have : memRead s .txbuf 0 s.txlen.toNat = none := by
    simp only [memRead, bufBytes, s.txbuf.len]; rw [if_neg (by omega)]
  rw [execSend, this] at h
  cases h

/-- Everything SEND can do (R132). -/
theorem execSend_cases (s : State) (h : s.txlen.toNat ≤ 18) :
    (∃ r l, r <:+ s.chan ∧ execSend s = .next { s with
      chan := r
      txstream := s.txstream ++ s.txbuf.bytes.take s.txlen.toNat
      log := l
      phase := .waitA }) ∨
    (∃ c r k t, r <:+ s.chan ∧ execSend s = .next t ∧
      raisedByCause { s with chan := r, txstream := s.txstream ++ (s.txbuf.bytes.take s.txlen.toNat).take k } t c) ∨
    (ChanAnswer.never ∈ s.chan ∧ execSend s = .next s) := by
  rw [execSend, memRead_txbuf s h, withBuf_some]
  obtain ⟨r, hs, hr⟩ | ⟨c, r, k, hs, hr⟩ | ⟨hn, hr⟩ := chanWrite_cases s (s.txbuf.bytes.take s.txlen.toNat) <;> rw [hr]
  · exact .inl ⟨r, _, hs, rfl⟩
  · exact .inr (.inl ⟨c, r, k, _, hs, rfl, raisedByCause_channelFailed c _⟩)
  · exact .inr (.inr ⟨hn, rfl⟩)

/-- Everything a wait can do: the step it selects is the one difference between the two (R133, R136). -/
theorem execWaitA_cases (s : State) :
    (s.intr = false ∧ execWaitA s = .next { s with
      tmr := .expired, waitedMs := s.waitedMs + s.cfg.delay, phase := .hdr }) ∨
    (s.intr = true ∧ ∃ t, execWaitA s = .next t ∧
      raised { s with tmr := .expired, intr := false } t ⟨.interrupted, none, none, none, none⟩) := by
  unfold execWaitA
  by_cases hi : s.intr = true
  · rw [wait_pending hi]; exact .inr ⟨hi, _, rfl, raised_raiseError _ .interrupted none⟩
  · have hf : s.intr = false := by simpa using hi
    rw [wait_idle hf]; exact .inl ⟨hf, rfl⟩

theorem execWaitB_cases (s : State) :
    (s.intr = false ∧ execWaitB s = .next { s with
      tmr := .expired, waitedMs := s.waitedMs + s.cfg.delay, phase := .cks }) ∨
    (s.intr = true ∧ ∃ t, execWaitB s = .next t ∧
      raised { s with tmr := .expired, intr := false } t ⟨.interrupted, none, none, none, none⟩) := by
  unfold execWaitB
  by_cases hi : s.intr = true
  · rw [wait_pending hi]; exact .inr ⟨hi, _, rfl, raised_raiseError _ .interrupted none⟩
  · have hf : s.intr = false := by simpa using hi
    rw [wait_idle hf]; exact .inl ⟨hf, rfl⟩

/-- Two bytes at the front of a sequence of at least two. -/
theorem two_of_length {l : List Byte} (h : 2 ≤ l.length) : ∃ a b rest, l = a :: b :: rest := by
  match l, h with
  | a :: b :: rest, _ => exact ⟨a, b, rest, rfl⟩

/-- Everything RDHDR can do (R134). -/
theorem execRdhdr_cases (s : State) :
    (∃ r a b rest, r <:+ s.chan ∧ s.rxfifo = a :: b :: rest ∧ execRdhdr s = .next { s with
      chan := r
      rxfifo := rest
      rxhdr := ⟨a, b⟩
      rxn := BitVec.ofNat 4 (Codec.len a)
      phase := if 0 < Codec.len a then .data else .waitB }) ∨
    (∃ r, r <:+ s.chan ∧ s.rxfifo.length < 2 ∧ execRdhdr s = .next { s with chan := r, phase := .idle }) ∨
    (∃ c r n t, r <:+ s.chan ∧ n ≤ 2 ∧ (s.rxfifo.length < 2 → n = 0) ∧ execRdhdr s = .next t ∧ raisedByCause { s with chan := r, rxfifo := s.rxfifo.drop n } t c) ∨
    (ChanAnswer.never ∈ s.chan ∧ execRdhdr s = .next s) := by
  unfold execRdhdr
  obtain ⟨r, hs, hr⟩ | ⟨c, r, hs, hr⟩ | ⟨hn, hr⟩ := chanAvail_cases s <;> rw [hr]
  · rw [withChan_ok]
    split
    · rename_i h2
      obtain ⟨a, b, rest, hf⟩ := two_of_length h2
      obtain ⟨r', hs', hr'⟩ | ⟨c, r', m, hs', hm, hr'⟩ | ⟨hn, hr'⟩ := chanRead_cases { s with chan := r } h2 <;> rw [hr']
      · refine .inl ⟨r', a, b, rest, hs'.trans hs, hf, ?_⟩
        simp only [hf, withChan_ok, List.take_succ_cons, List.take_zero, memWrite_rxhdr, withBuf_some,
          List.drop_succ_cons, List.drop_zero]
        rfl
      · exact .inr (.inr (.inl ⟨c, r', m, _, hs'.trans hs, hm, fun h => absurd h2 (by omega), rfl, raisedByCause_channelFailed c _⟩))
      · exact .inr (.inr (.inr ⟨hs.subset hn, rfl⟩))
    · exact .inr (.inl ⟨r, hs, by omega, rfl⟩)
  · exact .inr (.inr (.inl ⟨c, r, 0, _, hs, by omega, fun _ => rfl, rfl, raisedByCause_channelFailed c _⟩))
  · exact .inr (.inr (.inr ⟨hn, rfl⟩))

/-- Everything RDDATA can do (R135). -/
theorem execRddata_cases (s : State) :
    (∃ r, r <:+ s.chan ∧ s.rxn.toNat ≤ s.rxfifo.length ∧ execRddata s = .next { s with
      chan := r
      rxfifo := s.rxfifo.drop s.rxn.toNat
      rxdata := Buffer.ofList 15 (s.rxfifo.take s.rxn.toNat ++ s.rxdata.bytes.drop s.rxn.toNat)
      phase := .waitB }) ∨
    (∃ r t, r <:+ s.chan ∧ s.rxfifo.length < s.rxn.toNat ∧ execRddata s = .next t ∧
      raised { s with chan := r } t ⟨.missingData, none, some s.rxhdr, none, none⟩) ∨
    (∃ c r n t, r <:+ s.chan ∧ n ≤ s.rxn.toNat ∧ (s.rxfifo.length < s.rxn.toNat → n = 0) ∧ execRddata s = .next t ∧
      raisedByCause { s with chan := r, rxfifo := s.rxfifo.drop n } t c) ∨
    (ChanAnswer.never ∈ s.chan ∧ execRddata s = .next s) := by
  have hn15 := s.rxn.isLt
  unfold execRddata
  obtain ⟨r, hs, hr⟩ | ⟨c, r, hs, hr⟩ | ⟨hn, hr⟩ := chanAvail_cases s <;> rw [hr]
  · rw [withChan_ok]
    split
    · rename_i h2
      have hl : (s.rxfifo.take s.rxn.toNat).length = s.rxn.toNat := by simp [h2]
      obtain ⟨r', hs', hr'⟩ | ⟨c, r', m, hs', hm, hr'⟩ | ⟨hn, hr'⟩ := chanRead_cases { s with chan := r } h2 <;> rw [hr']
      · refine .inl ⟨r', hs'.trans hs, h2, ?_⟩
        simp only [withChan_ok]
        rw [memWrite_rxdata _ (by omega), withBuf_some]
        simp only [hl]
        rfl
      · exact .inr (.inr (.inl ⟨c, r', m, _, hs'.trans hs, hm, fun h => absurd h2 (by omega), rfl, raisedByCause_channelFailed c _⟩))
      · exact .inr (.inr (.inr ⟨hs.subset hn, rfl⟩))
    · exact .inr (.inl ⟨r, _, hs, by omega, rfl, raised_raiseError _ .missingData none⟩)
  · exact .inr (.inr (.inl ⟨c, r, 0, _, hs, by omega, fun _ => rfl, rfl, raisedByCause_channelFailed c _⟩))
  · exact .inr (.inr (.inr ⟨hn, rfl⟩))

/-- Everything RDCKS can do (R137). -/
theorem execRdcks_cases (s : State) :
    (∃ r c rest, r <:+ s.chan ∧ s.rxfifo = c :: rest ∧ execRdcks s = .next { s with
      chan := r, rxfifo := rest, rxcks := c, phase := .decode }) ∨
    (∃ r t, r <:+ s.chan ∧ s.rxfifo = [] ∧ execRdcks s = .next t ∧
      raised { s with chan := r } t
        ⟨.missingChecksum, none, some s.rxhdr, some (s.rxdata.bytes.take s.rxn.toNat), none⟩) ∨
    (∃ c r n t, r <:+ s.chan ∧ n ≤ 1 ∧ (s.rxfifo.length < 1 → n = 0) ∧ execRdcks s = .next t ∧ raisedByCause { s with chan := r, rxfifo := s.rxfifo.drop n } t c) ∨
    (ChanAnswer.never ∈ s.chan ∧ execRdcks s = .next s) := by
  unfold execRdcks
  obtain ⟨r, hs, hr⟩ | ⟨c, r, hs, hr⟩ | ⟨hn, hr⟩ := chanAvail_cases s <;> rw [hr]
  · rw [withChan_ok]
    split
    · rename_i h2
      obtain ⟨c, rest, hf⟩ := List.exists_cons_of_length_pos h2
      obtain ⟨r', hs', hr'⟩ | ⟨c', r', m, hs', hm, hr'⟩ | ⟨hn, hr'⟩ := chanRead_cases { s with chan := r } h2 <;> rw [hr']
      · refine .inl ⟨r', c, rest, hs'.trans hs, hf, ?_⟩
        simp [hf]
      · exact .inr (.inr (.inl ⟨c', r', m, _, hs'.trans hs, hm, fun h => absurd h2 (by omega), rfl, raisedByCause_channelFailed c' _⟩))
      · exact .inr (.inr (.inr ⟨hs.subset hn, rfl⟩))
    · rename_i h2
      exact .inr (.inl ⟨r, _, hs, List.eq_nil_of_length_eq_zero (by omega), rfl, raised_raiseError _ .missingChecksum none⟩)
  · exact .inr (.inr (.inl ⟨c, r, 0, _, hs, by omega, fun _ => rfl, rfl, raisedByCause_channelFailed c _⟩))
  · exact .inr (.inr (.inr ⟨hn, rfl⟩))

/-- PARSE on a coherent reply (R138); on another it is refused (log 17). -/
theorem execParse_eq (s : State) : execParse s =
    if s.rxn.toNat = Codec.len s.rxhdr.cmd1 then
      .next ((parseReply
        (s.debugLog (.inbound (Codec.hexfmt (s.rxhdr.bytes ++ s.rxdata.bytes.take s.rxn.toNat ++ [s.rxcks]))))
        s.rxhdr (s.rxdata.bytes.take s.rxn.toNat) s.rxcks s.tag).setPhase .idle)
    else .refused .replyIncoherent := by
  have hl : (s.rxdata.bytes.take s.rxn.toNat).length = s.rxn.toNat := by
    have := s.rxn.isLt; simp [s.rxdata.len]; omega
  rw [execParse, memRead_rxhdr, withBuf_some, memRead_rxdata, withBuf_some, Header.ofList_bytes, hl]

/-- Everything the parser can do (R161): nothing, one event with no cell, or one event with its cell. -/
theorem parseReply_cases (s : State) (h : Header) (d : List Byte) (c : Byte) (g : VideoCommand) :
    parseReply s h d c g = s ∨
    (∃ e, parseReply s h d c g = { s with evlog := s.evlog ++ [.err e] }) ∨
    (∃ t, parseReply s h d c g = { s with curTc := some t, evlog := s.evlog ++ [.tc t] }) ∨
    (∃ u, parseReply s h d c g = { s with
      curUbLocal := some u, evlog := s.evlog ++ [.ub .localCh u ⟨some u, s.curUbVert⟩] }) ∨
    (∃ u, parseReply s h d c g = { s with
      curUbVert := some u, evlog := s.evlog ++ [.ub .verticalCh u ⟨s.curUbLocal, some u⟩] }) ∨
    (∃ st, parseReply s h d c g = { s with curState := some st, evlog := s.evlog ++ [.state st] }) := by
  unfold parseReply
  split
  · rename_i hv
    refine .inr (.inl ⟨⟨.checksumMismatch, none, some h, some d, some c⟩, ?_⟩)
    rw [gateArm, if_neg (by simpa using hv)]; rfl
  split
  · exact .inr (.inr (.inl ⟨_, rfl⟩))
  split
  · exact .inr (.inr (.inr (.inl ⟨_, rfl⟩)))
  split
  · exact .inr (.inr (.inr (.inr (.inl ⟨_, rfl⟩))))
  split
  · exact .inr (.inr (.inr (.inr (.inr ⟨_, rfl⟩))))
  · exact .inl rfl

end Sys2Proof.Machine
end

