-- ==== Sys2Proof/Laws/Parser.lean ====
section
/-! SUPPORT. The two readings of a reply are one: what PARSE does with it and what the operation it
decodes to does (R150). -/

namespace Sys2Proof.Machine

/-- A reply of a header and as many data bytes as it announces decodes to its arm. -/
theorem decode_reply {P : Config} {h : Header} {d : List Byte} (c : Byte) (hd : d.length = Codec.len h.cmd1) :
    decode P ⟨.reply, h.bytes ++ d ++ [c]⟩ = .ok (replyInstr P h d c) := by
  simp only [decode, Codec.split_parts c hd]

/-- The arm a reply decodes to does what the parser does with the reply. -/
theorem exec_replyInstr (s : State) (h : Header) (d : List Byte) (c : Byte) :
    exec (replyInstr s.cfg h d c) s = .next (parseReply s h d c s.tag) := by
  unfold replyInstr parseReply
  by_cases hv : Codec.verify h d c = true
  · simp only [hv, Bool.not_true, Bool.false_eq_true, if_false]
    by_cases ht : Codec.istc s.cfg h = true
    · simp only [ht, if_true]
      simp only [Codec.istc, Bool.or_eq_true] at ht
      split; · rfl
      split; · rfl
      split; · rfl
      split; · rfl
      split; · rfl
      simp_all
    · rw [if_neg ht]
      simp only [Codec.istc, Bool.or_eq_true, not_or] at ht
      rw [if_neg ht.1.1.1.1, if_neg ht.1.1.1.2, if_neg ht.1.1.2, if_neg ht.1.2, if_neg ht.2]
      split; · rfl
      split; · rfl
      split; · rfl
      rfl
  · simp only [hv, Bool.not_false, if_true]; rfl

end Sys2Proof.Machine
end

