-- ==== Sys2Proof/Laws/PerInstr.lean ====
section
/-! SUPPORT. For every operation: the shape of the image it is encoded to (spec/30_encoding.md R70, R71,
R85, and the column `format` of spec/opcode_table.json). -/

namespace Sys2Proof.Laws.EncodedShape

open Sys2Proof

/-- The shape the bytes of an image have by their selector: a request a well-formed frame of at most
18 bytes (R41, R170), a phase
code one byte of at most 7 (R85), a reply a well-formed frame (R70), an error label one byte of 1 to 5
(R185), a host command no byte. -/
def ofImage (im : Image) : Prop :=
  match im.sel with
  | .request _ => Codec.wf im.bytes = true ∧ im.bytes.length ≤ 18
  | .phase => ∃ b : Byte, im.bytes = [b] ∧ b.toNat ≤ 7
  | .reply => Codec.wf im.bytes = true
  | .fn _ => True
  | .trap _ => ∃ b : Byte, im.bytes = [b] ∧ 1 ≤ b.toNat ∧ b.toNat ≤ 5
  | .host _ => im.bytes = []

/-- A well-formed operation is encoded to an image of its selector's shape. -/
def Statement (i : Instr) : Prop := ∀ P : Config, i.wellFormed P = true → ofImage (encode P i)

/-- A reply of a header and as many data bytes as it announces is a well-formed frame. -/
theorem wf_reply {h : Header} {d : List Byte} (c : Byte) (hd : d.length = Codec.len h.cmd1) :
    Codec.wf (h.bytes ++ d ++ [c]) = true := by
  rw [Codec.wf_iff]
  simp [Header.bytes, hd]
  omega

theorem frame (f : Frame) (g : VideoCommand) : Statement (.frame f g) := fun _ h => ⟨h, f.le⟩

theorem accept : Statement .accept := fun _ _ => ⟨_, rfl, by decide⟩

theorem send : Statement .send := fun _ _ => ⟨_, rfl, by decide⟩

theorem waitA : Statement .waitA := fun _ _ => ⟨_, rfl, by decide⟩

theorem rdhdr : Statement .rdhdr := fun _ _ => ⟨_, rfl, by decide⟩

theorem rddata : Statement .rddata := fun _ _ => ⟨_, rfl, by decide⟩

theorem waitB : Statement .waitB := fun _ _ => ⟨_, rfl, by decide⟩

theorem rdcks : Statement .rdcks := fun _ _ => ⟨_, rfl, by decide⟩

theorem parse : Statement .parse := fun _ _ => ⟨_, rfl, by decide⟩

theorem pVerify (h : Header) (d : List Byte) (c : Byte) : Statement (.pVerify h d c) := fun _ hw => wf_reply c (by simp only [Instr.wellFormed, Bool.and_eq_true, beq_iff_eq] at hw; exact hw.1)

theorem pTcLtc (d : Quad) : Statement (.pTcLtc d) := fun _ _ => wf_reply _ (by simp)

theorem pTcVtc (d : Quad) : Statement (.pTcVtc d) := fun _ _ => wf_reply _ (by simp)

theorem pTcAltLtc (d : Quad) : Statement (.pTcAltLtc d) := fun _ _ => wf_reply _ (by simp)

theorem pTcTimer1 (d : Quad) : Statement (.pTcTimer1 d) := fun _ _ => wf_reply _ (by simp)

theorem pTcTimer2 (d : Quad) : Statement (.pTcTimer2 d) := fun _ _ => wf_reply _ (by simp)

theorem pUbLocal (h : Header) (d : Quad) : Statement (.pUbLocal h d) := fun _ hw => wf_reply _ (by
  simp only [Instr.wellFormed, Bool.and_eq_true] at hw; simp [Codec.len_of_isubl hw.1])

theorem pUbVert (h : Header) (d : Quad) : Statement (.pUbVert h d) := fun _ hw => wf_reply _ (by
  simp only [Instr.wellFormed, Bool.and_eq_true] at hw; simp [Codec.len_of_isubv hw.1])

theorem pStatus (h : Header) (d : List Byte) : Statement (.pStatus h d) := fun _ hw => wf_reply _ (by
  simp only [Instr.wellFormed, Bool.and_eq_true, beq_iff_eq] at hw; exact hw.1.1)

theorem pDrop (h : Header) (d : List Byte) : Statement (.pDrop h d) := fun _ hw => wf_reply _ (by
  simp only [Instr.wellFormed, Bool.and_eq_true, beq_iff_eq] at hw; exact hw.1)

theorem cksum (s : List Byte) : Statement (.cksum s) := fun _ _ => trivial

theorem stamp (body : List Byte) (slot : Byte) : Statement (.stamp body slot) := fun _ _ => trivial

theorem verify (h : Header) (d : List Byte) (c : Byte) : Statement (.verify h d c) := fun _ _ => trivial

theorem len (b : Byte) : Statement (.len b) := fun _ _ => trivial

theorem flen (b : Byte) : Statement (.flen b) := fun _ _ => trivial

theorem wf (f : List Byte) : Statement (.wf f) := fun _ _ => trivial

theorem wfs (f : List Byte) : Statement (.wfs f) := fun _ _ => trivial

theorem split (f : List Byte) : Statement (.split f) := fun _ _ => trivial

theorem hexfmt (s : List Byte) : Statement (.hexfmt s) := fun _ _ => trivial

theorem tcdec (b : Byte) : Statement (.tcdec b) := fun _ _ => trivial

theorem tcenc (v : Int) : Statement (.tcenc v) := fun _ _ => trivial

theorem tc4dec (d : Quad) : Statement (.tc4dec d) := fun _ _ => trivial

theorem tc4enc (t : Timecode) : Statement (.tc4enc t) := fun _ _ => trivial

theorem istc (h : Header) : Statement (.istc h) := fun _ _ => trivial

theorem ubdec (d : Quad) : Statement (.ubdec d) := fun _ _ => trivial

theorem ubpack (u : Userbits) : Statement (.ubpack u) := fun _ _ => trivial

theorem isubl (h : Header) : Statement (.isubl h) := fun _ _ => trivial

theorem isubv (h : Header) : Statement (.isubv h) := fun _ _ => trivial

theorem isstatus (h : Header) : Statement (.isstatus h) := fun _ _ => trivial

theorem stdec (h : Header) (d : List Byte) (g : VideoCommand) : Statement (.stdec h d g) := fun _ _ => trivial

theorem raise (k : ErrKind) (cause : Option Cause) : Statement (.raise k cause) := fun _ _ => by cases k <;> exact ⟨_, rfl, by decide⟩

theorem requestUserbits : Statement .requestUserbits := fun _ _ => rfl

theorem requestTimestamp : Statement .requestTimestamp := fun _ _ => rfl

theorem requestElapsedTime : Statement .requestElapsedTime := fun _ _ => rfl

theorem otherVideoCommand (c : VideoCommand) : Statement (.otherVideoCommand c) := fun _ _ => rfl

end Sys2Proof.Laws.EncodedShape
end

