-- ==== Sys2Proof/Laws/Step.lean ====
section
/-! SUPPORT. What one step can do: `step_cases` says it once, for every agent, and the invariants are
derived from it. -/

namespace Sys2Proof.Machine

/-- The framer step a phase selects (R21). -/
def phaseStep : Phase → Instr
  | .idle => .accept
  | .send => .send
  | .waitA => .waitA
  | .hdr => .rdhdr
  | .data => .rddata
  | .waitB => .waitB
  | .cks => .rdcks
  | .decode => .parse

theorem decode_phaseImage (P : Config) (p : Phase) : decode P (phaseImage p) = .ok (phaseStep p) := by
  cases p <;> rfl

theorem decode_host (P : Config) (c : VideoCommand) : decode P ⟨.host c, []⟩ = .ok (hostInstr c) := rfl

theorem decode_request (P : Config) (f : Frame) (g : VideoCommand) :
    decode P ⟨.request g, f.bytes⟩ = if Codec.wf f.bytes then .ok (.frame f g) else .error .requestShape := by
  simp [decode, requestInstr, f.pos, f.le]

/-- A codec call answers its caller or is refused; it does nothing else. -/
theorem exec_fnInstr {n : FnName} {l : List Byte} {i : Instr} (h : fnInstr n l = .ok i) (s : State) :
    (∃ v, exec i s = .next (s.answer v)) ∨ ∃ r, exec i s = .refused r := by
  have key : ∀ j : Instr, fnInstr n l = .ok j → (∃ v, exec j s = .next (s.answer v)) ∨ ∃ r, exec j s = .refused r := by
    intro j hj
    have hu : ∀ u, (∃ v, execUbpack u s = .next (s.answer v)) ∨ ∃ r, execUbpack u s = .refused r := by
      intro u; unfold execUbpack; split
      · exact .inl ⟨_, rfl⟩
      · exact .inr ⟨_, rfl⟩
    have hv : ∀ v, (∃ w, execTcenc v s = .next (s.answer w)) ∨ ∃ r, execTcenc v s = .refused r := by
      intro v; unfold execTcenc; split
      · exact .inl ⟨_, rfl⟩
      · exact .inr ⟨_, rfl⟩
    have ht : ∀ t, (∃ w, execTc4enc t s = .next (s.answer w)) ∨ ∃ r, execTc4enc t s = .refused r := by
      intro t; unfold execTc4enc; split
      · exact .inl ⟨_, rfl⟩
      · exact .inr ⟨_, rfl⟩
    cases n <;>
      simp only [fnInstr, stampOperand, verifyOperand, oneByte, headerOperand, quadOperand, tcencOperand,
        tc4encOperand, ubpackOperand, stdecOperand] at hj <;>
      (repeat' split at hj) <;> cases hj <;>
      first
        | exact .inl ⟨_, rfl⟩
        | exact hu _
        | exact hv _
        | exact ht _
  exact key i h

/-- What a presentation can make of REQ and the queue: REQ is filled only while the block is idle and REQ
empty, and every request that goes to either is well formed or was waiting (R170). -/
structure Ported (s : State) (rq : Option Request) (q : List HostItem) : Prop where
  req : rq = s.req ∨ (s.phase = .idle ∧ s.req = none ∧
    ∃ r, rq = some r ∧ (Codec.wf r.frame.bytes = true ∨ HostItem.request r ∈ s.hostq))
  queue : ∀ r, HostItem.request r ∈ q → Codec.wf r.frame.bytes = true ∨ HostItem.request r ∈ s.hostq

theorem ready_iff (s : State) : ready s = true ↔ s.phase = .idle ∧ s.req = none := by simp [ready, busy]

/-- A presentation that fills no port leaves a queue of the old items and commands. -/
theorem Ported.of_queue {s : State} {q : List HostItem} (h : ∀ r, HostItem.request r ∈ q → HostItem.request r ∈ s.hostq) :
    Ported s s.req q := ⟨.inl rfl, fun r hr => .inr (h r hr)⟩

/-- Everything FRAME can do (R41, R68, R170). -/
theorem exec_frame_cases (f : Frame) (g : VideoCommand) (s : State) :
    (Codec.wf f.bytes = false ∧ exec (.frame f g) s = .refused .frameNotWellFormed) ∨
    ∃ rq q, Ported s rq q ∧ exec (.frame f g) s = .next { s with req := rq, hostq := q } := by
  show _ ∨ ∃ rq q, _ ∧ execFrame f g s = _
  cases hw : Codec.wf f.bytes with
  | false => exact .inl ⟨rfl, by simp [exec, execFrame, hw]⟩
  | true =>
    right
    unfold execFrame
    rw [hw]
    by_cases hr : (ready s && s.hostq.isEmpty) = true
    · have h := (ready_iff s).1 (Bool.and_eq_true .. ▸ hr).1
      exact ⟨some ⟨f, g⟩, s.hostq, ⟨.inr ⟨h.1, h.2, _, rfl, .inl hw⟩, fun _ h => .inr h⟩, by simp [hr]⟩
    · refine ⟨s.req, s.hostq ++ [.request ⟨f, g⟩], ⟨.inl rfl, fun r h => ?_⟩, by simp [hr]⟩
      obtain h | h := List.mem_append.1 h
      · exact .inr h
      · obtain rfl : r = ⟨f, g⟩ := by simpa using h
        exact .inl hw

/-- Everything a dispatched command can do (R166 to R168). -/
theorem exec_hostInstr_cases (c : VideoCommand) (s : State) :
    (∃ f, Codec.encodeCmd s.cfg c = some f ∧ Codec.wf f.bytes = false ∧
      exec (hostInstr c) s = .refused .frameNotWellFormed) ∨
    (∃ rq q, Ported s rq q ∧ exec (hostInstr c) s = .next { s with req := rq, hostq := q }) ∨
    exec (hostInstr c) s = .next (publishNoop s) := by
  have other : ∀ c', (∃ f, Codec.encodeCmd s.cfg c' = some f ∧ Codec.wf f.bytes = false ∧
      execOtherVideoCommand c' s = .refused .frameNotWellFormed) ∨
      (∃ rq q, Ported s rq q ∧ execOtherVideoCommand c' s = .next { s with req := rq, hostq := q }) := by
    intro c'
    unfold execOtherVideoCommand
    split
    · exact .inr ⟨s.req, s.hostq, .of_queue fun _ h => h, rfl⟩
    · rename_i f he
      cases hw : Codec.wf f.bytes with
      | false => exact .inl ⟨f, he, hw, by simp⟩
      | true =>
        right
        by_cases hr : ready s = true
        · have h := (ready_iff s).1 hr
          exact ⟨some ⟨f, c'⟩, s.hostq, ⟨.inr ⟨h.1, h.2, _, rfl, .inl hw⟩, fun _ h => .inr h⟩, by simp [hr]⟩
        · exact ⟨s.req, .command c' :: s.hostq, .of_queue fun r h => by simpa using h, by simp [hr]⟩
  cases c
  case requestUserbits => exact .inr (.inl ⟨s.req, _, .of_queue fun r h => by simpa using h, rfl⟩)
  case requestTimestamp => exact .inr (.inr rfl)
  case requestElapsedTime => exact .inr (.inr rfl)
  all_goals
    obtain h | h := other _
    · exact .inl h
    · exact .inr (.inl h)

/-- What one move `m` of the schedule (or the default one) can make of a state `s` whose schedule is
already moved on: one constructor for each kind of move. -/
inductive Moved (m : Option Move) (s t : State) : Prop where
  /-- The framer's step. -/
  | framer (hm : m = none ∨ m = some .framer) (h : exec (phaseStep s.phase) s = .next t)
  /-- The Event Hub's step. -/
  | hub (hm : ∀ bs, m ≠ some (.device bs)) (h : t = hubStep s)
  /-- DEVICE appends bytes. -/
  | device (bs : List Byte) (hm : m = some (.device bs)) (h : t = { s with rxfifo := s.rxfifo ++ bs })
  /-- HOST-CANCEL. -/
  | cancel (hm : ∀ bs, m ≠ some (.device bs)) (h : t = { s with intr := true })
  /-- CHANNEL-FAULT. -/
  | channel (hm : ∀ bs, m ≠ some (.device bs)) (a : ChanAnswer) (h : t = { s with chan := s.chan ++ [a] })
  /-- A caller submits commands, or the dispatcher finds nothing to do. -/
  | submit (hm : ∀ bs, m ≠ some (.device bs)) (cs : List VideoCommand) (hl : cs.length ≤ 1)
      (h : t = { s with hostq := s.hostq ++ cs.map .command, commandsIn := s.commandsIn ++ cs })
  /-- A subscriber subscribes. -/
  | subscribe (hm : ∀ bs, m ≠ some (.device bs)) (n : StreamName) (h : t = Machine.subscribe s n)
  /-- A codec call. -/
  | answer (hm : ∀ bs, m ≠ some (.device bs)) (v : CodecValue) (h : t = { s with result := some v })
  /-- A command or a frame goes to REQ, or to the queue. -/
  | port (hm : ∀ bs, m ≠ some (.device bs)) (rq : Option Request) (q : List HostItem) (hp : Ported s rq q)
      (h : t = { s with req := rq, hostq := q })
  /-- A no-op command's video index. -/
  | noop (hm : ∀ bs, m ≠ some (.device bs)) (q : List HostItem) (hq : ∀ i ∈ q, i ∈ s.hostq)
      (h : t = publishNoop { s with hostq := q })

/-- The rest of `step` after `fetch`. -/
def runFetched (f : Fetched) : Result :=
  match f with
  | .moved s' => .next s'
  | .run im s' =>
    match decode s'.cfg im with
    | .ok i => exec i s'
    | .error e => .refused (.undecodable e)

theorem step_eq (s : State) : step s = runFetched (fetch s) := by
  unfold step runFetched; rfl

@[simp] theorem runFetched_moved (s : State) : runFetched (.moved s) = .next s := rfl

@[simp] theorem runFetched_phase (p : Phase) (s : State) : runFetched (.run (phaseImage p) s) = exec (phaseStep p) s := by
  simp only [runFetched, decode_phaseImage]

@[simp] theorem runFetched_host (c : VideoCommand) (s : State) :
    runFetched (.run ⟨.host c, []⟩ s) = exec (hostInstr c) s := rfl

theorem runFetched_request (f : Frame) (g : VideoCommand) (s : State) :
    runFetched (.run ⟨.request g, f.bytes⟩ s) =
      if Codec.wf f.bytes then exec (.frame f g) s else .refused (.undecodable .requestShape) := by
  simp only [runFetched, decode_request]
  cases Codec.wf f.bytes <;> rfl

/-- A queue without its head. -/
theorem Ported.tail {s : State} {x : HostItem} {q q' : List HostItem} {rq : Option Request} (hq : s.hostq = x :: q)
    (h : Ported { s with hostq := q } rq q') : Ported s rq q' := by
  have hmem : ∀ r, HostItem.request r ∈ q → HostItem.request r ∈ s.hostq := fun r hr => hq ▸ List.mem_cons_of_mem _ hr
  refine ⟨?_, fun r hr => (h.queue r hr).imp id (hmem r)⟩
  obtain h | ⟨hi, hn, r, hr, hw⟩ := h.req
  · exact .inl h
  · exact .inr ⟨hi, hn, r, hr, hw.imp id (hmem r)⟩

theorem moved_dispatcher {s t : State} {m : Option Move} (hm : ∀ bs, m ≠ some (.device bs))
    (h : runFetched (dispatcherFetch s) = .next t) : Moved m s t := by
  unfold dispatcherFetch at h
  split at h
  · rename_i hr
    split at h
    · rename_i c q hq
      rw [runFetched_host] at h
      obtain ⟨f, _, _, he⟩ | ⟨rq, q', hp, he⟩ | he := exec_hostInstr_cases c { s with hostq := q } <;>
        rw [he] at h <;> cases h
      · exact .port hm rq q' (hp.tail hq) rfl
      · exact .noop hm q (fun i hi => hq ▸ List.mem_cons_of_mem _ hi) rfl
    · rename_i r q hq
      cases h
      have hi := (ready_iff s).1 hr
      exact .port hm _ q ⟨.inr ⟨hi.1, hi.2, r, rfl, .inr (by simp [hq])⟩, fun r hr => .inr (by simp [hq, hr])⟩ rfl
    · cases h; exact .submit hm [] (Nat.zero_le 1) (by simp)
  · cases h; exact .submit hm [] (Nat.zero_le 1) (by simp)

theorem moved_fetchMove {s t : State} {m : Move} (h : runFetched (fetchMove s m) = .next t) : Moved (some m) s t := by
  cases m with
  | framer => exact .framer (.inr rfl) (by simpa only [fetchMove, runFetched_phase] using h)
  | dispatcher => exact moved_dispatcher (by simp) h
  | hub => cases h; exact .hub (by simp) rfl
  | device bs => cases h; exact .device bs rfl rfl
  | cancel => cases h; exact .cancel (by simp) rfl
  | channel a => cases h; exact .channel (by simp) a rfl
  | submit c => cases h; exact .submit (by simp) [c] (Nat.le_refl 1) rfl
  | subscribe n => cases h; exact .subscribe (by simp) n rfl
  | present f g =>
    rw [fetchMove, runFetched_request] at h
    split at h
    · obtain ⟨_, he⟩ | ⟨rq, q', hp, he⟩ := exec_frame_cases f g s <;> rw [he] at h <;> cases h
      exact .port (by simp) rq q' hp rfl
    · cases h
  | codec n l =>
    simp only [fetchMove, runFetched, decode] at h
    split at h
    · rename_i i hi
      obtain ⟨v, he⟩ | ⟨r, he⟩ := exec_fnInstr hi s
      · exact .answer (by simp) v (by rw [he] at h; cases h; rfl)
      · rw [he] at h; cases h
    · cases h

theorem moved_default {s t : State} (h : runFetched (defaultFetch s) = .next t) : Moved none s t := by
  unfold defaultFetch at h
  split at h
  · exact .framer (.inl rfl) (by simpa only [runFetched_phase] using h)
  split at h
  · cases h; exact .hub (by simp) rfl
  split at h
  · exact moved_dispatcher (by simp) h
  · exact .framer (.inl rfl) (by simpa only [runFetched_phase] using h)

/-- Everything one step of the machine can do when it answers a next state. -/
theorem step_cases {s t : State} (h : step s = .next t) : ∃ sch, Moved s.schedule.head? { s with schedule := sch } t := by
  rw [step_eq, fetch] at h
  split at h
  · rename_i hs; rw [hs]; exact ⟨s.schedule, moved_default h⟩
  · rename_i m r hs; rw [hs]; exact ⟨_, moved_fetchMove h⟩

/-- The framer's move runs PHASE's step. -/
theorem step_framer {s : State} {r : List Move} (h : s.schedule = .framer :: r) :
    step s = exec (phaseStep s.phase) { s with schedule := r } := by
  rw [step_eq, fetch, h]
  show runFetched (.run (phaseImage s.phase) _) = _
  rw [runFetched_phase]

/-- DEVICE's move (R66). -/
theorem step_device {s : State} {bs : List Byte} {r : List Move} (h : s.schedule = .device bs :: r) :
    step s = .next { s with schedule := r, rxfifo := s.rxfifo ++ bs } := by
  rw [step_eq, fetch, h]; rfl

theorem run_succ_of_step (M : Host.Core) (k : Nat) {s t : M.State} (h : M.step s = .next t) :
    M.run (k + 1) s = M.run k t := by
  simp only [Host.Core.run, h]

/-- A run takes its first step and goes on. -/
theorem run_succ (k : Nat) {s t : State} (h : step s = .next t) : core.run (k + 1) s = core.run k t :=
  run_succ_of_step core k h

/-! ### The Event Hub -/

/-- What `recompute` can do: it draws, and publishes at most one value (R176, R177). -/
theorem recompute_cases (s : State) : ∃ n vi lv, List.length vi ≤ 1 ∧
    recompute s = { s with draws := n, viStream := s.viStream ++ vi, lastVi := lv } := by
  unfold recompute
  simp only
  split
  · exact ⟨_, [], s.lastVi, Nat.zero_le 1, by rw [List.append_nil]⟩
  · exact ⟨_, [_], _, Nat.le_refl 1, rfl⟩

/-- `latest_tc` once the event is consumed (R176). -/
def tcAfter (old : Option Timecode) : Event → Option Timecode
  | .tc t => some t
  | .ub _ _ _ => old
  | .state _ => old
  | .err _ => old

/-- `latest_state` once the event is consumed (R176). -/
def stateAfter (old : Option RS422State) : Event → Option RS422State
  | .tc _ => old
  | .ub _ _ _ => old
  | .state st => some st
  | .err _ => old

/-- What the Event Hub's step can do: nothing, or the next event of EVLOG is consumed (R176). -/
theorem hubStep_cases (s : State) :
    hubStep s = s ∨ ∃ e n vi lv, s.evlog[s.hubPos]? = some e ∧ List.length vi ≤ 1 ∧ hubStep s = { s with
      hubPos := s.hubPos + 1
      latestTc := tcAfter s.latestTc e
      latestState := stateAfter s.latestState e
      draws := n
      viStream := s.viStream ++ vi
      lastVi := lv } := by
  unfold hubStep
  split
  · rename_i e he
    right
    cases e with
    | tc t =>
      obtain ⟨n, vi, lv, hl, hr⟩ := recompute_cases { s with hubPos := s.hubPos + 1, latestTc := some t }
      exact ⟨_, n, vi, lv, he, hl, by rw [hubEvent, hr]; rfl⟩
    | state st =>
      obtain ⟨n, vi, lv, hl, hr⟩ := recompute_cases { s with hubPos := s.hubPos + 1, latestState := some st }
      exact ⟨_, n, vi, lv, he, hl, by rw [hubEvent, hr]; rfl⟩
    | ub w g c => exact ⟨_, s.draws, [], s.lastVi, he, Nat.zero_le 1, by rw [List.append_nil]; rfl⟩
    | err r => exact ⟨_, s.draws, [], s.lastVi, he, Nat.zero_le 1, by rw [List.append_nil]; rfl⟩
  · exact .inl rfl

/-! ### The framer -/

/-- What a raise leaves, its log and its CANCEL_OUT left open. -/
theorem raised_eq {s t : State} {e : ErrorRecord} (h : raised s t e) : ∃ l co,
    t = { s with evlog := s.evlog ++ [.err e], cancelOut := co, phase := .idle, log := l } := ⟨_, _, h.2⟩

/-- What one framer step can make of a state: one constructor for each way it can go. -/
inductive Framed (s t : State) : Prop where
  /-- ACCEPT with no request, or a primitive that never answers. -/
  | stay (hn : s.phase = .idle ∧ s.req = none ∨ ChanAnswer.never ∈ s.chan) (h : t = s)
  /-- ACCEPT takes the request. -/
  | accept (r : Request) (hp : s.phase = .idle) (hr : s.req = some r) (h : t = { s with
      txbuf := Buffer.ofList 18 (Codec.stamp r.frame.bytes ++ s.txbuf.bytes.drop r.frame.bytes.length)
      txlen := BitVec.ofNat 5 r.frame.bytes.length
      tag := r.tag
      req := none
      phase := .send })
  /-- SEND writes the frame. -/
  | send (hp : s.phase = .send) (r : List ChanAnswer) (hs : r <:+ s.chan) (l : List LogLine) (h : t = { s with
      chan := r
      txstream := s.txstream ++ s.txbuf.bytes.take s.txlen.toNat
      log := l
      phase := .waitA })
  /-- A wait expires. -/
  | wait (p : Phase) (hp : s.phase = .waitA ∧ p = .hdr ∨ s.phase = .waitB ∧ p = .cks) (w : Nat)
      (h : t = { s with tmr := .expired, waitedMs := w, phase := p })
  /-- RDHDR reads the header. -/
  | hdr (hp : s.phase = .hdr) (r : List ChanAnswer) (hs : r <:+ s.chan) (a b : Byte) (rest : List Byte)
      (hf : s.rxfifo = a :: b :: rest)
      (h : t = { s with
        chan := r
        rxfifo := rest
        rxhdr := ⟨a, b⟩
        rxn := BitVec.ofNat 4 (Codec.len a)
        phase := if 0 < Codec.len a then .data else .waitB })
  /-- RDHDR finds no response. -/
  | silent (hp : s.phase = .hdr) (r : List ChanAnswer) (hs : r <:+ s.chan) (h : t = { s with chan := r, phase := .idle })
  /-- RDDATA reads the data. -/
  | data (hp : s.phase = .data) (r : List ChanAnswer) (hs : r <:+ s.chan) (hl : s.rxn.toNat ≤ s.rxfifo.length) (h : t = { s with
      chan := r
      rxfifo := s.rxfifo.drop s.rxn.toNat
      rxdata := Buffer.ofList 15 (s.rxfifo.take s.rxn.toNat ++ s.rxdata.bytes.drop s.rxn.toNat)
      phase := .waitB })
  /-- RDCKS reads the checksum. -/
  | cks (hp : s.phase = .cks) (r : List ChanAnswer) (hs : r <:+ s.chan) (c : Byte) (rest : List Byte) (hf : s.rxfifo = c :: rest)
      (h : t = { s with chan := r, rxfifo := rest, rxcks := c, phase := .decode })
  /-- A step raises; INTR is cleared only by an interruption. -/
  | fail (hp : s.phase ≠ .idle ∧ s.phase ≠ .decode) (r : List ChanAnswer) (hs : r <:+ s.chan) (n : Nat) (pre : List Byte)
      (l : List LogLine) (co : Nat) (i : Bool) (e : ErrorRecord) (tm : Timer)
      (hrx : n ≤ bytesAsked s ∧ (s.rxfifo.length < bytesAsked s → n = 0))
      (htx : pre <+: s.txbuf.bytes.take s.txlen.toNat) (htx' : s.phase ≠ .send → pre = [])
      (hi : i = s.intr ∨ i = false ∧ co = s.cancelOut + 1 ∧ ∃ cause, e = ⟨.interrupted, cause, none, none, none⟩)
      (htm : tm = s.tmr ∨ tm = .expired) (h : t = { s with
        chan := r
        rxfifo := s.rxfifo.drop n
        txstream := s.txstream ++ pre
        evlog := s.evlog ++ [.err e]
        cancelOut := co
        phase := .idle
        log := l
        intr := i
        tmr := tm })
  /-- PARSE hands the reply to the parser. -/
  | parse (hp : s.phase = .decode) (ln : LogLine)
      (h : t = (parseReply (s.debugLog ln) s.rxhdr (s.rxdata.bytes.take s.rxn.toNat) s.rxcks s.tag).setPhase .idle)

theorem framed_cause {s t : State} {c : Cause} {r : List ChanAnswer} {n : Nat} {pre : List Byte}
    (hp : s.phase ≠ .idle ∧ s.phase ≠ .decode) (hs : r <:+ s.chan)
    (hrx : n ≤ bytesAsked s ∧ (s.rxfifo.length < bytesAsked s → n = 0))
    (htx : pre <+: s.txbuf.bytes.take s.txlen.toNat) (htx' : s.phase ≠ .send → pre = [])
    (h : raisedByCause { s with chan := r, rxfifo := s.rxfifo.drop n, txstream := s.txstream ++ pre } t c) :
    Framed s t := by
  cases c with
  | io k =>
    obtain ⟨l, co, h⟩ := raised_eq h
    exact .fail hp r hs n pre l co s.intr _ s.tmr hrx htx htx' (.inl rfl) (.inl rfl) h
  | interruption k =>
    have h2 := h.2
    exact .fail hp r hs n pre _ _ false _ s.tmr hrx htx htx' (.inr ⟨rfl, rfl, _, rfl⟩) (.inl rfl) h2

theorem framed_raised {s t : State} {e : ErrorRecord} {r : List ChanAnswer}
    (hp : s.phase ≠ .idle ∧ s.phase ≠ .decode) (hs : r <:+ s.chan) (h : raised { s with chan := r } t e) : Framed s t := by
  obtain ⟨l, co, h⟩ := raised_eq h
  exact .fail hp r hs 0 [] l co s.intr e s.tmr ⟨Nat.zero_le _, fun _ => rfl⟩ List.nil_prefix (fun _ => rfl) (.inl rfl) (.inl rfl)
    (by rw [h]; simp)

theorem framed_interrupted {s t : State} (hp : s.phase ≠ .idle ∧ s.phase ≠ .decode)
    (h : raised { s with tmr := .expired, intr := false } t ⟨.interrupted, none, none, none, none⟩) : Framed s t :=
  .fail hp s.chan List.suffix_rfl 0 [] t.log (s.cancelOut + 1) false ⟨.interrupted, none, none, none, none⟩ .expired
    ⟨Nat.zero_le _, fun _ => rfl⟩ List.nil_prefix (fun _ => rfl) (.inr ⟨rfl, rfl, _, rfl⟩) (.inr rfl)
    (by have := h.2; simpa using this)

/-- Everything a framer step can do when it answers a next state. -/
theorem phaseStep_cases {s t : State} (h : exec (phaseStep s.phase) s = .next t) : Framed s t := by
  cases hp : s.phase <;> rw [hp] at h <;> simp only [phaseStep, exec] at h
  case idle =>
    obtain ⟨hr, he⟩ | ⟨r, hr, he⟩ := execAccept_cases s <;> rw [he] at h <;> cases h
    · exact .stay (.inl ⟨hp, hr⟩) (by rw [← hp])
    · exact .accept r hp hr rfl
  case send =>
    obtain ⟨r, l, hs, he⟩ | ⟨c, r, k, t', hs, he, hr⟩ | ⟨hn, he⟩ := execSend_cases s (execSend_bound h) <;> rw [he] at h <;> cases h
    · exact .send hp r hs l rfl
    · exact framed_cause (n := 0) (by simp [hp]) hs ⟨Nat.zero_le _, fun _ => rfl⟩ (List.take_prefix _ _) (fun h => absurd hp h) hr
    · exact .stay (.inr hn) rfl
  case waitA =>
    obtain ⟨hi, he⟩ | ⟨hi, t', he, hr⟩ := execWaitA_cases s <;> rw [he] at h <;> cases h
    · exact .wait _ (.inl ⟨hp, rfl⟩) _ rfl
    · exact framed_interrupted (by simp [hp]) hr
  case waitB =>
    obtain ⟨hi, he⟩ | ⟨hi, t', he, hr⟩ := execWaitB_cases s <;> rw [he] at h <;> cases h
    · exact .wait _ (.inr ⟨hp, rfl⟩) _ rfl
    · exact framed_interrupted (by simp [hp]) hr
  case hdr =>
    obtain ⟨r, a, b, rest, hs, hf, he⟩ | ⟨r, hs, hf, he⟩ | ⟨c, r, n, t', hs, hm, hz, he, hr⟩ | ⟨hn, he⟩ := execRdhdr_cases s <;>
      rw [he] at h <;> cases h
    · exact .hdr hp r hs a b rest hf rfl
    · exact .silent hp r hs rfl
    · exact framed_cause (r := r) (n := n) (pre := []) (by simp [hp]) hs
        (by simp only [bytesAsked, hp]; exact ⟨hm, hz⟩) List.nil_prefix (fun _ => rfl) (by simpa using hr)
    · exact .stay (.inr hn) rfl
  case data =>
    obtain ⟨r, hs, hf, he⟩ | ⟨r, t', hs, hf, he, hr⟩ | ⟨c, r, n, t', hs, hm, hz, he, hr⟩ | ⟨hn, he⟩ := execRddata_cases s <;>
      rw [he] at h <;> cases h
    · exact .data hp r hs hf rfl
    · exact framed_raised (by simp [hp]) hs hr
    · exact framed_cause (r := r) (n := n) (pre := []) (by simp [hp]) hs
        (by simp only [bytesAsked, hp]; exact ⟨hm, hz⟩) List.nil_prefix (fun _ => rfl) (by simpa using hr)
    · exact .stay (.inr hn) rfl
  case cks =>
    obtain ⟨r, c, rest, hs, hf, he⟩ | ⟨r, t', hs, hf, he, hr⟩ | ⟨c, r, n, t', hs, hm, hz, he, hr⟩ | ⟨hn, he⟩ := execRdcks_cases s <;>
      rw [he] at h <;> cases h
    · exact .cks hp r hs c rest hf rfl
    · exact framed_raised (by simp [hp]) hs hr
    · exact framed_cause (r := r) (n := n) (pre := []) (by simp [hp]) hs
        (by simp only [bytesAsked, hp]; exact ⟨hm, hz⟩) List.nil_prefix (fun _ => rfl) (by simpa using hr)
    · exact .stay (.inr hn) rfl
  case decode =>
    rw [execParse_eq] at h
    split at h <;> cases h
    exact .parse hp _ rfl

/-! ### One step, by what it leaves -/

/-- The framer moves only when the schedule says so or has run out. -/
theorem not_framerWaits {s : State} (h : s.schedule.head? = none ∨ s.schedule.head? = some .framer) : ¬s.framerWaits := by
  rintro ⟨m, r, hs, hm⟩
  rw [hs] at h
  simp_all

theorem arriving_nil {s : State} (h : ∀ bs, s.schedule.head? ≠ some (.device bs)) : s.arriving = [] := by
  unfold State.arriving
  split
  · rename_i hs; exact absurd (by rw [hs]; rfl) (h _)
  · rfl

theorem arriving_device {s : State} {bs : List Byte} (h : s.schedule.head? = some (.device bs)) : s.arriving = bs := by
  unfold State.arriving
  match hs : s.schedule with
  | [] => simp [hs] at h
  | m :: r => simp [hs] at h; subst h; rfl

/-- What one step can leave: a framer step, a consumed event, or a move of the environment, which touches
no register, no cell, no EVLOG and no TXSTREAM. -/
inductive Stepped (s t : State) : Prop where
  | framer (sch : List Move) (hm : ¬s.framerWaits) (ha : s.arriving = []) (h : Framed { s with schedule := sch } t)
  | hub (sch : List Move) (e : Event) (n : Nat) (vi : List VideoIndex) (lv : Option VideoIndex) (ha : s.arriving = [])
      (he : s.evlog[s.hubPos]? = some e) (hl : vi.length ≤ 1) (h : t = { s with
        schedule := sch
        hubPos := s.hubPos + 1
        latestTc := tcAfter s.latestTc e
        latestState := stateAfter s.latestState e
        draws := n
        viStream := s.viStream ++ vi
        lastVi := lv })
  | environment (sch : List Move) (i : Bool) (ch : List ChanAnswer) (q : List HostItem) (cs : List VideoCommand)
      (res : Option CodecValue) (rq : Option Request) (dr : Nat) (vi : List VideoIndex) (lv : Option VideoIndex)
      (subs : List Subscription) (hi : s.intr = true → i = true) (hp : Ported s rq q)
      (hsub : ∀ u ∈ subs, u.start = (streamItems s u.stream).length)
      (hl : cs.length ≤ 1 ∧ vi.length ≤ 1 ∧ subs.length ≤ 1) (h : t = { s with
        schedule := sch
        rxfifo := s.rxfifo ++ s.arriving
        intr := i
        chan := ch
        hostq := q
        commandsIn := s.commandsIn ++ cs
        result := res
        req := rq
        draws := dr
        viStream := s.viStream ++ vi
        lastVi := lv
        subscriptions := s.subscriptions ++ subs })

/-- Everything one step can leave. -/
theorem step_leaves {s t : State} (h : step s = .next t) : Stepped s t := by
  obtain ⟨sch, hm⟩ := step_cases h
  have same : Ported s s.req s.hostq := .of_queue fun _ h => h
  cases hm with
  | framer hm h =>
    exact .framer sch (not_framerWaits hm) (arriving_nil fun bs hb => by obtain h | h := hm <;> simp [hb] at h)
      (phaseStep_cases h)
  | hub hm h =>
    obtain he | ⟨e, n, vi, lv, h1, hl, h2⟩ := hubStep_cases { s with schedule := sch }
    · exact .environment sch s.intr s.chan s.hostq [] s.result s.req s.draws [] s.lastVi [] id same nofun (by simp)
        (by simp only [h, he, arriving_nil hm, List.append_nil])
    · exact .hub sch e n vi lv (arriving_nil hm) h1 hl (by rw [h, h2])
  | device bs hm h =>
    exact .environment sch s.intr s.chan s.hostq [] s.result s.req s.draws [] s.lastVi [] id same nofun (by simp)
      (by simp only [h, arriving_device hm, List.append_nil])
  | cancel hm h =>
    exact .environment sch true s.chan s.hostq [] s.result s.req s.draws [] s.lastVi [] (fun _ => rfl) same nofun (by simp)
      (by simp only [h, arriving_nil hm, List.append_nil])
  | channel hm a h =>
    exact .environment sch s.intr (s.chan ++ [a]) s.hostq [] s.result s.req s.draws [] s.lastVi [] id same nofun (by simp)
      (by simp only [h, arriving_nil hm, List.append_nil])
  | submit hm cs hl h =>
    exact .environment sch s.intr s.chan _ cs s.result s.req s.draws [] s.lastVi [] id
      (.of_queue (q := s.hostq ++ cs.map .command) fun r hr => by simpa using hr) nofun (by simpa using hl)
      (by simp only [h, arriving_nil hm, List.append_nil])
  | subscribe hm n h =>
    exact .environment sch s.intr s.chan s.hostq [] s.result s.req s.draws [] s.lastVi
      [⟨n, (streamItems s n).length⟩] id same (by simp) (by simp) (by rw [h, arriving_nil hm]; simp only [List.append_nil]; rfl)
  | answer hm v h =>
    exact .environment sch s.intr s.chan s.hostq [] (some v) s.req s.draws [] s.lastVi [] id same nofun (by simp)
      (by simp only [h, arriving_nil hm, List.append_nil])
  | port hm rq q hp h =>
    exact .environment sch s.intr s.chan q [] s.result rq s.draws [] s.lastVi [] id ⟨hp.req, hp.queue⟩ nofun (by simp)
      (by simp only [h, arriving_nil hm, List.append_nil])
  | noop hm q hq h =>
    subst h
    refine .environment sch s.intr s.chan q [] s.result s.req (s.draws + 1) [⟨some (Config.now s.draws), none⟩]
      (if Config.noopSetsLastVi then some ⟨some (Config.now s.draws), none⟩ else s.lastVi) [] id
      (.of_queue fun r hr => hq _ hr) nofun (by simp) ?_
    simp only [publishNoop, arriving_nil hm, List.append_nil]

end Sys2Proof.Machine
end

