-- ==== Sys2Proof/Laws/Streams.lean ====
section
/-! SUPPORT. How each stream and its last value change when one event is appended to EVLOG. -/

namespace Sys2Proof.Machine

theorem timecodeStream_append (a b : List Event) :
    timecodeStream (a ++ b) = timecodeStream a ++ timecodeStream b := List.filterMap_append ..

theorem stateStream_append (a b : List Event) : stateStream (a ++ b) = stateStream a ++ stateStream b :=
  List.filterMap_append ..

theorem userbitsStream_append (a b : List Event) : userbitsStream (a ++ b) = userbitsStream a ++ userbitsStream b :=
  List.filterMap_append ..

theorem userbitsGroups_append (a b : List Event) (ch : UbChannel) :
    userbitsGroups (a ++ b) ch = userbitsGroups a ch ++ userbitsGroups b ch := by
  unfold userbitsGroups; rw [userbitsStream_append]; exact List.filterMap_append ..

theorem errorStream_append (a b : List Event) : errorStream (a ++ b) = errorStream a ++ errorStream b :=
  List.filterMap_append ..

/-- The last group of a channel once the event is appended (R33). -/
def groupAfter (ch : UbChannel) (old : Option UBGroup) : Event → Option UBGroup
  | .ub which g _ => if which = ch then some g else old
  | .tc _ => old
  | .state _ => old
  | .err _ => old

theorem timecodeStream_last (l : List Event) (e : Event) :
    (timecodeStream (l ++ [e])).getLast? = tcAfter (timecodeStream l).getLast? e := by
  rw [timecodeStream_append]; cases e <;> simp [timecodeStream, tcAfter]

theorem stateStream_last (l : List Event) (e : Event) :
    (stateStream (l ++ [e])).getLast? = stateAfter (stateStream l).getLast? e := by
  rw [stateStream_append]; cases e <;> simp [stateStream, stateAfter]

theorem userbitsGroups_last (l : List Event) (ch : UbChannel) (e : Event) :
    (userbitsGroups (l ++ [e]) ch).getLast? = groupAfter ch (userbitsGroups l ch).getLast? e := by
  rw [userbitsGroups_append]
  cases e with
  | ub which g c =>
    unfold groupAfter
    by_cases hc : which = ch <;> simp [userbitsGroups, userbitsStream, hc]
  | tc t => simp [userbitsGroups, userbitsStream, groupAfter]
  | state st => simp [userbitsGroups, userbitsStream, groupAfter]
  | err r => simp [userbitsGroups, userbitsStream, groupAfter]

/-- Every stream grows only at its end, when EVLOG, the commands-in stream and the video index do. -/
theorem streamItems_append {s t : State} {es : List Event} {cs : List VideoCommand} {vi : List VideoIndex}
    (he : t.evlog = s.evlog ++ es) (hc : t.commandsIn = s.commandsIn ++ cs) (hv : t.viStream = s.viStream ++ vi)
    (n : StreamName) : ∃ l, streamItems t n = streamItems s n ++ l := by
  cases n <;>
    simp only [streamItems, he, hc, hv, timecodeStream_append, stateStream_append, userbitsStream_append,
      errorStream_append, List.map_append] <;>
    exact ⟨_, rfl⟩

/-- A subscriber's view grows with its stream. -/
theorem subscriberView_append {s t : State} {u : Subscription} {l : List StreamItem}
    (h : streamItems t u.stream = streamItems s u.stream ++ l) : ∃ l', subscriberView t u = subscriberView s u ++ l' := by
  unfold subscriberView
  rw [h, List.drop_append]
  exact ⟨_, rfl⟩

/-- The part of EVLOG the Event Hub has consumed, once it takes the next event. -/
theorem take_succ_of_getElem? {l : List Event} {n : Nat} {e : Event} (h : l[n]? = some e) :
    l.take (n + 1) = l.take n ++ [e] := by
  rw [List.take_add_one, h]; rfl

end Sys2Proof.Machine
end

