-- ==== Sys2Proof/Tests/Slice0.lean ====
section
/-! SUPPORT. The model's own tests: expected results are those of spec/95_test_vectors.md (V1 to V8) or
of the rule a test names; words are written out from the encodings of spec/30_encoding.md and
spec/opcode_table.json. Concrete headers are REFCFG's (spec/93_implementation_defined.md G1). -/

namespace Sys2Proof.Tests

open Sys2Proof Sys2Proof.Machine

/-! ### Helpers -/

/-- REFCFG (G1), with P.DELAY = 20 and P.DEBUG set; `play` and the two userbits commands are in the table. -/
def refCfg : Config where
  delay := 20
  tcHdr := ⟨⟨7, 0x04⟩, ⟨7, 0x06⟩, ⟨7, 0x14⟩, ⟨7, 0x00⟩, ⟨7, 0x01⟩⟩
  ubLocalHdr := [⟨7, 0x05⟩]
  ubVertHdr := [⟨7, 0x07⟩]
  statusHdr := (List.range 16).map fun n => ⟨nibbles 7 n, 0x20⟩
  debug := true
  table := [(.play, ⟨[0x20, 0x01, 0], by decide, by decide⟩),
    (.requestLocalUserbits, ⟨[0x61, 0x0C, 0x10, 0], by decide, by decide⟩),
    (.requestVerticalUserbits, ⟨[0x61, 0x0C, 0x20, 0], by decide, by decide⟩)]

/-- The reset state under REFCFG. -/
def start : State := { State.reset with cfg := refCfg }

/-- A field of the next state, or none when the machine stops. -/
def after {α : Type} (o : Result) (f : State → α) : Option α :=
  match o with
  | .next t => some (f t)
  | .fault _ => none
  | .refused _ => none

/-- What a codec call leaves. -/
def value (i : Instr) : Option (Option CodecValue) := after (exec i start) State.result

/-- Is the operation refused for this reason? -/
def refusedBy (i : Instr) (r : Refusal) : Bool :=
  match exec i start with
  | .refused r' => r' == r
  | .next _ => false
  | .fault _ => false

/-- The request `61 0C 01 ??` of V5.1. -/
def tcRequest : Request := ⟨⟨[0x61, 0x0C, 0x01, 0xFF], by decide, by decide⟩, .requestTimecode⟩

/-- In SEND with `61 0C 01 6E` in TXBUF (V5.3). -/
def sending : State := { start with
  phase := .send, txbuf := Buffer.ofList 18 [0x61, 0x0C, 0x01, 0x6E], txlen := 4, tag := .requestTimecode }

/-- In a later phase of the same cycle. -/
def inPhase (p : Phase) (fifo : List Byte) : State := { sending with phase := p, rxfifo := fifo }

/-- The header `74 04` is read (V5.12). -/
def afterHeader (p : Phase) (fifo : List Byte) : State :=
  { inPhase p fifo with rxhdr := ⟨0x74, 0x04⟩, rxn := 4, rxdata := Buffer.ofList 15 [0x12, 0x34, 0x56, 0x01] }

/-- The whole reply is read (V5.25). -/
def received (c : Byte) : State := { afterHeader .decode [] with rxcks := c }

/-! ### WellFormed: one ill-formed term for each check -/

theorem test_wf_refCfg : refCfg.wellFormed = true := by decide

theorem test_illformed_tc_local : headersDisjoint refCfg.tcHdr [⟨7, 0x04⟩] [⟨7, 0x07⟩] = false := by decide

theorem test_illformed_tc_vert : headersDisjoint refCfg.tcHdr [⟨7, 0x05⟩] [⟨7, 0x01⟩] = false := by decide

theorem test_illformed_local_vert : headersDisjoint refCfg.tcHdr [⟨7, 0x05⟩] [⟨7, 0x05⟩] = false := by decide

theorem test_illformed_frame :
    (Instr.frame ⟨[0x21, 0x00, 0x21], by decide, by decide⟩ .stop).wellFormed refCfg = false := by decide

theorem test_illformed_table :
    ({ refCfg with table := [(.stop, ⟨[0x21, 0x00, 0x21], by decide, by decide⟩)] } : Config).wellFormed = false := by
  decide

theorem test_illformed_pVerify_length : (Instr.pVerify ⟨0x74, 0x04⟩ [0x12] 0).wellFormed refCfg = false := by decide

theorem test_illformed_pVerify_match :
    (Instr.pVerify ⟨0x74, 0x04⟩ [0x12, 0x34, 0x56, 0x01] 0x15).wellFormed refCfg = false := by decide

/-- All five timecode headers equal: only the first arm is ever selected. -/
def oneHeader : Config := { refCfg with tcHdr := ⟨⟨7, 4⟩, ⟨7, 4⟩, ⟨7, 4⟩, ⟨7, 4⟩, ⟨7, 4⟩⟩, apart := by decide }

theorem test_illformed_pTcVtc : (Instr.pTcVtc ⟨0, 0, 0, 0⟩).wellFormed oneHeader = false := by decide

theorem test_illformed_pTcAltLtc : (Instr.pTcAltLtc ⟨0, 0, 0, 0⟩).wellFormed oneHeader = false := by decide

theorem test_illformed_pTcTimer1 : (Instr.pTcTimer1 ⟨0, 0, 0, 0⟩).wellFormed oneHeader = false := by decide

theorem test_illformed_pTcTimer2 : (Instr.pTcTimer2 ⟨0, 0, 0, 0⟩).wellFormed oneHeader = false := by decide

theorem test_illformed_pUbLocal : (Instr.pUbLocal ⟨0x74, 0x04⟩ ⟨0, 0, 0, 0⟩).wellFormed refCfg = false := by decide

theorem test_illformed_pUbVert : (Instr.pUbVert ⟨0x74, 0x05⟩ ⟨0, 0, 0, 0⟩).wellFormed refCfg = false := by decide

theorem test_illformed_pStatus_length : (Instr.pStatus ⟨0x73, 0x20⟩ [0]).wellFormed refCfg = false := by decide

theorem test_illformed_pStatus_class : (Instr.pStatus ⟨0x73, 0x21⟩ [0, 0, 0]).wellFormed refCfg = false := by decide

theorem test_illformed_pDrop_length : (Instr.pDrop ⟨0x10, 0x01⟩ [0]).wellFormed refCfg = false := by decide

theorem test_illformed_pDrop_class : (Instr.pDrop ⟨0x73, 0x20⟩ [0, 0, 0]).wellFormed refCfg = false := by decide

theorem test_illformed_verify : (Instr.verify ⟨0x7F, 0x20⟩ (List.replicate 16 0) 0).wellFormed refCfg = false := by decide

theorem test_illformed_tcenc :
    (Instr.tcenc 160).wellFormed refCfg = false ∧ (Instr.tcenc (-1)).wellFormed refCfg = false := by decide

theorem test_illformed_tc4enc : (Instr.tc4enc ⟨0, 0, 160, 0⟩).wellFormed refCfg = false := by decide

theorem test_illformed_ubpack : (Instr.ubpack ⟨some ⟨0xDE, 0xAD, 0xBE, 0xEF⟩, none⟩).wellFormed refCfg = false := by decide

theorem test_illformed_stdec : (Instr.stdec ⟨0x73, 0x20⟩ [0] .play).wellFormed refCfg = false := by decide

theorem test_illformed_raise : (Instr.raise .ioFailure none).wellFormed refCfg = false := by decide

theorem test_illformed_other : (Instr.otherVideoCommand .requestUserbits).wellFormed refCfg = false := by decide

/-! ### Decoding: one word for every constructor, written out from the encoding -/

theorem test_decode_frame : decode refCfg ⟨.request .play, [0b00100000, 0x01, 0x00]⟩ =
    .ok (.frame ⟨[0x20, 0x01, 0x00], by decide, by decide⟩ .play) := rfl

/-- `000` to `111`: the eight phase codes of R85, as table words. -/
theorem test_decode_phases :
    decodeTableWord 8 0b000 = some .accept ∧ decodeTableWord 8 0b001 = some .send ∧
      decodeTableWord 8 0b010 = some .waitA ∧ decodeTableWord 8 0b011 = some .rdhdr ∧
      decodeTableWord 8 0b100 = some .rddata ∧ decodeTableWord 8 0b101 = some .waitB ∧
      decodeTableWord 8 0b110 = some .rdcks ∧ decodeTableWord 8 0b111 = some .parse ∧
      decodeTableWord 8 0b1000 = none := by decide

/-- V6.6. -/
theorem test_decode_pVerify : decode refCfg ⟨.reply, [0x74, 0x04, 0x12, 0x34, 0x56, 0x01, 0x16]⟩ =
    .ok (.pVerify ⟨0x74, 0x04⟩ [0x12, 0x34, 0x56, 0x01] 0x16) := rfl

/-- `gggg0100cccccccc` with g = 7, c = 04 (V6.1). -/
theorem test_decode_pTcLtc : decode refCfg ⟨.reply, [0b01110100, 0x04, 0x12, 0x34, 0x56, 0x01, 0x15]⟩ =
    .ok (.pTcLtc ⟨0x12, 0x34, 0x56, 0x01⟩) := rfl

/-- V6.2. -/
theorem test_decode_pTcVtc : decode refCfg ⟨.reply, [0b01110100, 0x06, 0x29, 0x59, 0x59, 0x23, 0x78]⟩ =
    .ok (.pTcVtc ⟨0x29, 0x59, 0x59, 0x23⟩) := rfl

/-- V6.3. -/
theorem test_decode_pTcAltLtc : decode refCfg ⟨.reply, [0b01110100, 0x14, 0x24, 0x15, 0x08, 0x10, 0xD9]⟩ =
    .ok (.pTcAltLtc ⟨0x24, 0x15, 0x08, 0x10⟩) := rfl

/-- V6.4. -/
theorem test_decode_pTcTimer1 : decode refCfg ⟨.reply, [0b01110100, 0x00, 0, 0, 0, 0, 0x74]⟩ =
    .ok (.pTcTimer1 ⟨0, 0, 0, 0⟩) := rfl

/-- V6.5. -/
theorem test_decode_pTcTimer2 : decode refCfg ⟨.reply, [0b01110100, 0x01, 0x05, 0x04, 0x03, 0x02, 0x83]⟩ =
    .ok (.pTcTimer2 ⟨0x05, 0x04, 0x03, 0x02⟩) := rfl

/-- V6.7. -/
theorem test_decode_pUbLocal : decode refCfg ⟨.reply, [0b01110100, 0x05, 0xDE, 0xAD, 0xBE, 0xEF, 0xB1]⟩ =
    .ok (.pUbLocal ⟨0x74, 0x05⟩ ⟨0xDE, 0xAD, 0xBE, 0xEF⟩) := rfl

/-- V6.8. -/
theorem test_decode_pUbVert : decode refCfg ⟨.reply, [0b01110100, 0x07, 0x01, 0x02, 0x03, 0x04, 0x85]⟩ =
    .ok (.pUbVert ⟨0x74, 0x07⟩ ⟨0x01, 0x02, 0x03, 0x04⟩) := rfl

/-- `ggggnnnncccccccc` with g = 7, n = 3, c = 20 (V6.9). -/
theorem test_decode_pStatus : decode refCfg ⟨.reply, [0b01110011, 0x20, 0x00, 0x82, 0x01, 0x16]⟩ =
    .ok (.pStatus ⟨0x73, 0x20⟩ [0x00, 0x82, 0x01]) := rfl

/-- V6.10. -/
theorem test_decode_pDrop : decode refCfg ⟨.reply, [0x10, 0x01, 0x11]⟩ = .ok (.pDrop ⟨0x10, 0x01⟩ []) := rfl

theorem test_decode_checksum_family :
    decode refCfg ⟨.fn .cksum, [0x61, 0x0C, 0x01]⟩ = .ok (.cksum [0x61, 0x0C, 0x01]) ∧
      decode refCfg ⟨.fn .stamp, [0x20, 0x01, 0xFF]⟩ = .ok (.stamp [0x20, 0x01] 0xFF) ∧
      decode refCfg ⟨.fn .verify, [0x10, 0x01, 0x11]⟩ = .ok (.verify ⟨0x10, 0x01⟩ [] 0x11) ∧
      decode refCfg ⟨.fn .stamp, []⟩ = .error .operandLength := ⟨rfl, rfl, rfl, rfl⟩

theorem test_decode_length_family :
    decode refCfg ⟨.fn .len, [0b01110100]⟩ = .ok (.len 0x74) ∧ decode refCfg ⟨.fn .flen, [0b01110100]⟩ = .ok (.flen 0x74) ∧
      decode refCfg ⟨.fn .wf, [0x20, 0x00, 0x20]⟩ = .ok (.wf [0x20, 0x00, 0x20]) ∧
      decode refCfg ⟨.fn .wfs, [0x20, 0x00, 0x20]⟩ = .ok (.wfs [0x20, 0x00, 0x20]) ∧
      decode refCfg ⟨.fn .split, [0x10, 0x01, 0x11]⟩ = .ok (.split [0x10, 0x01, 0x11]) ∧
      decode refCfg ⟨.fn .hexfmt, [0x0A]⟩ = .ok (.hexfmt [0x0A]) := ⟨rfl, rfl, rfl, rfl, rfl, rfl⟩

/-- `ttttuuuu`: tens in the high nibble; a units nibble above 9 encodes no value (R111). -/
theorem test_decode_timecode_family :
    decode refCfg ⟨.fn .tcdec, [0b00110100]⟩ = .ok (.tcdec 0x34) ∧ decode refCfg ⟨.fn .tcenc, [0b00110100]⟩ = .ok (.tcenc 34) ∧
      decode refCfg ⟨.fn .tcenc, [0x0A]⟩ = .error .notCanonical ∧
      decode refCfg ⟨.fn .tc4dec, [0x12, 0x34, 0x56, 0x01]⟩ = .ok (.tc4dec ⟨0x12, 0x34, 0x56, 0x01⟩) ∧
      decode refCfg ⟨.fn .tc4enc, [0x12, 0x34, 0x56, 0x01]⟩ = .ok (.tc4enc ⟨1, 56, 34, 12⟩) ∧
      decode refCfg ⟨.fn .istc, [0x74, 0x04]⟩ = .ok (.istc ⟨0x74, 0x04⟩) := ⟨rfl, rfl, rfl, rfl, rfl, rfl⟩

theorem test_decode_userbits_family :
    decode refCfg ⟨.fn .ubdec, [0xDE, 0xAD, 0xBE, 0xEF]⟩ = .ok (.ubdec ⟨0xDE, 0xAD, 0xBE, 0xEF⟩) ∧
      decode refCfg ⟨.fn .ubpack, [0xDE, 0xAD, 0xBE, 0xEF, 1, 2, 3, 4]⟩ =
        .ok (.ubpack ⟨some ⟨0xDE, 0xAD, 0xBE, 0xEF⟩, some ⟨1, 2, 3, 4⟩⟩) ∧
      decode refCfg ⟨.fn .isubl, [0x74, 0x05]⟩ = .ok (.isubl ⟨0x74, 0x05⟩) ∧
      decode refCfg ⟨.fn .isubv, [0x74, 0x07]⟩ = .ok (.isubv ⟨0x74, 0x07⟩) ∧
      decode refCfg ⟨.fn .isstatus, [0x73, 0x20]⟩ = .ok (.isstatus ⟨0x73, 0x20⟩) ∧
      decode refCfg ⟨.fn (.stdec .play), [0x73, 0x20, 0x00, 0x82, 0x01]⟩ =
        .ok (.stdec ⟨0x73, 0x20⟩ [0x00, 0x82, 0x01] .play) := ⟨rfl, rfl, rfl, rfl, rfl, rfl⟩

/-- The labels E1 to E5 of R185. -/
theorem test_decode_raise :
    decode refCfg ⟨.trap (some (.io 3)), [0b001]⟩ = .ok (.raise .ioFailure (some (.io 3))) ∧
      decode refCfg ⟨.trap none, [0b010]⟩ = .ok (.raise .missingData none) ∧
      decode refCfg ⟨.trap none, [0b011]⟩ = .ok (.raise .missingChecksum none) ∧
      decode refCfg ⟨.trap none, [0b100]⟩ = .ok (.raise .checksumMismatch none) ∧
      decode refCfg ⟨.trap none, [0b101]⟩ = .ok (.raise .interrupted none) ∧
      decode refCfg ⟨.trap none, [0]⟩ = .error .trapKind ∧
      decode refCfg ⟨.trap none, [0b001]⟩ = .error .trapCause := ⟨rfl, rfl, rfl, rfl, rfl, rfl, rfl⟩

theorem test_decode_host :
    decode refCfg ⟨.host .requestUserbits, []⟩ = .ok .requestUserbits ∧
      decode refCfg ⟨.host .requestTimestamp, []⟩ = .ok .requestTimestamp ∧
      decode refCfg ⟨.host .requestElapsedTime, []⟩ = .ok .requestElapsedTime ∧
      decode refCfg ⟨.host .play, []⟩ = .ok (.otherVideoCommand .play) ∧
      decode refCfg ⟨.host .play, [0x20]⟩ = .error .hostOperand := ⟨rfl, rfl, rfl, rfl, rfl⟩

/-- A phase word placed by `withFetchWord` is what the next step runs. -/
theorem test_withFetchWord_phase : step (State.reset.withFetchWord 8 3) = exec .rdhdr { State.reset with phase := .hdr } := rfl

/-- A reply word placed by `withFetchWord` is received whole and handed to the parser: `10 01` is dropped
under REFCFG. -/
theorem test_withFetchWord_reply : after (step (start.withFetchWord 16 0x1001)) (fun t => (t.phase, t.evlog, t.rxhdr)) =
    some (.idle, [], ⟨0x10, 0x01⟩) := by decide

/-! ### The codec functions (V1 to V4) -/

theorem test_cksum_wraps : value (.cksum [0x74, 0x04, 0x12, 0x34, 0x56, 0x01]) = some (some (.byte 0x15)) := by decide

theorem test_cksum_largest : value (.cksum (List.replicate 17 0xFF)) = some (some (.byte 0xEF)) := by decide

theorem test_stamp_ignores_slot :
    value (.stamp [0x61, 0x0C, 0x01] 0xFF) = some (some (.bytes [0x61, 0x0C, 0x01, 0x6E])) := by decide

theorem test_stamp_slot_only : value (.stamp [] 0xAB) = some (some (.bytes [0x00])) := by decide

theorem test_verify_one_off : value (.verify ⟨0x74, 0x04⟩ [0x12, 0x34, 0x56, 0x01] 0x16) = some (some (.truth false)) := by
  decide

theorem test_verify_swapped : value (.verify ⟨0x74, 0x04⟩ [0x34, 0x12, 0x56, 0x01] 0x15) = some (some (.truth true)) := by
  decide

theorem test_len_low_nibble : value (.len 0xF0) = some (some (.count 0)) := by decide

theorem test_flen_longest : value (.flen 0x7F) = some (some (.count 18)) := by decide

theorem test_wf_announces_one : value (.wf [0x21, 0x00, 0x21]) = some (some (.truth false)) := by decide

theorem test_wf_shortest : value (.wf [0x20, 0x00, 0x20]) = some (some (.truth true)) := by decide

theorem test_wfs_wrong_checksum : value (.wfs [0x61, 0x0C, 0x01, 0x6F]) = some (some (.truth false)) := by decide

theorem test_wfs_stamped : value (.wfs [0x61, 0x0C, 0x01, 0x6E]) = some (some (.truth true)) := by decide

theorem test_split_timecode : value (.split [0x74, 0x04, 0x12, 0x34, 0x56, 0x01, 0x15]) =
    some (some (.parts (some (⟨0x74, 0x04⟩, [0x12, 0x34, 0x56, 0x01], 0x15)))) := by decide

theorem test_split_short : value (.split [0x74, 0x04, 0x12, 0x34]) = some (some (.parts none)) := by decide

theorem test_hexfmt : value (.hexfmt [0x61, 0x0C, 0x01, 0x6E]) = some (some (.text "61 0C 01 6E".toList)) := by decide

theorem test_tcdec_largest : value (.tcdec 0xFF) = some (some (.count 165)) := by decide

theorem test_tcdec_units_above_nine : value (.tcdec 0x0A) = some (some (.count 10)) := by decide

theorem test_tcenc_above_99 : value (.tcenc 105) = some (some (.byte 0xA5)) := by decide

theorem test_tcenc_refused :
    refusedBy (.tcenc 160) .tcencDomain = true ∧ refusedBy (.tcenc (-1)) .tcencDomain = true := by decide

/-- 10:30:07:125 (V3.4). -/
theorem test_tc4dec_order : value (.tc4dec ⟨0xC5, 0x07, 0x30, 0x10⟩) = some (some (.timecode ⟨10, 30, 7, 125⟩)) := by decide

/-- 100:00:00:00 (V3.5). -/
theorem test_tc4enc_order : value (.tc4enc ⟨100, 0, 0, 0⟩) = some (some (.bytes [0, 0, 0, 0xA0])) := by decide

theorem test_tc4enc_refused : refusedBy (.tc4enc ⟨0, 160, 0, 0⟩) .tc4encDomain = true := by decide

theorem test_istc_members : value (.istc ⟨0x74, 0x14⟩) = some (some (.truth true)) := by decide

theorem test_istc_length_nibble : value (.istc ⟨0x75, 0x04⟩) = some (some (.truth false)) := by decide

theorem test_ubdec : value (.ubdec ⟨0xDE, 0xAD, 0xBE, 0xEF⟩) = some (some (.group ⟨0xDE, 0xAD, 0xBE, 0xEF⟩)) := by decide

theorem test_ubpack_local_first : value (.ubpack ⟨some ⟨0xDE, 0xAD, 0xBE, 0xEF⟩, some ⟨1, 2, 3, 4⟩⟩) =
    some (some (.bytes [0xDE, 0xAD, 0xBE, 0xEF, 1, 2, 3, 4])) := by decide

theorem test_ubpack_refused : refusedBy (.ubpack ⟨some ⟨0xDE, 0xAD, 0xBE, 0xEF⟩, none⟩) .ubpackAbsent = true := by decide

theorem test_isubl : value (.isubl ⟨0x74, 0x07⟩) = some (some (.truth false)) := by decide

theorem test_isubv : value (.isubv ⟨0x74, 0x07⟩) = some (some (.truth true)) := by decide

theorem test_isstatus_any_length : value (.isstatus ⟨0x7F, 0x20⟩) = some (some (.truth true)) := by decide

theorem test_isstatus_group : value (.isstatus ⟨0x63, 0x20⟩) = some (some (.truth false)) := by decide

/-- V4.8. -/
theorem test_stdec : value (.stdec ⟨0x73, 0x20⟩ [0x00, 0x82, 0x01] .play) =
    some (some (.status (Config.decodeStatus ⟨0x73, 0x20⟩ [0x00, 0x82, 0x01] .play))) := rfl

/-! ### The framer steps (V5) -/

/-- R170 item 3: a frame that announces one data byte and has none is refused. -/
theorem test_frame_refused :
    refusedBy (.frame ⟨[0x21, 0x00, 0x21], by decide, by decide⟩ .stop) .frameNotWellFormed = true := by decide

theorem test_frame_is_held : after (exec (.frame tcRequest.frame tcRequest.tag) start) State.req = some (some tcRequest) := by
  decide

/-- V5.1. -/
theorem test_accept : after (exec .accept { start with req := some tcRequest })
    (fun t => (t.txbuf.bytes.take 4, t.txlen.toNat, t.tag, t.phase, t.req)) =
    some ([0x61, 0x0C, 0x01, 0x6E], 4, .requestTimecode, .send, none) := by decide

/-- V5.2. -/
theorem test_accept_nothing : after (exec .accept start) State.phase = some .idle := by decide

/-- V5.3. -/
theorem test_send : after (exec .send sending) (fun t => (t.txstream, t.phase, t.log)) =
    some ([0x61, 0x0C, 0x01, 0x6E], .waitA, [.outbound "61 0C 01 6E".toList .requestTimecode]) := by decide

/-- V5.4 and V7.6: an I/O failure after two bytes, INTR pending: IOFailure, INTR stays. -/
theorem test_send_failed : after (exec .send { sending with chan := [.failed (.io 3) 2], intr := true })
    (fun t => (t.txstream, t.evlog, t.phase, t.intr)) =
    some ([0x61, 0x0C], [.err ⟨.ioFailure, some (.io 3), none, none, none⟩], .idle, true) := by decide

/-- V5.5. -/
theorem test_waitA : after (exec .waitA (inPhase .waitA [])) (fun t => (t.phase, t.waitedMs)) = some (.hdr, 20) := by decide

/-- V5.6. -/
theorem test_waitA_interrupted : after (exec .waitA { inPhase .waitA [] with intr := true })
    (fun t => (t.evlog, t.cancelOut, t.intr, t.phase)) =
    some ([.err ⟨.interrupted, none, none, none, none⟩], 1, false, .idle) := by decide

/-- V5.8: N = 0 skips RDDATA. -/
theorem test_rdhdr_no_data : after (exec .rdhdr (inPhase .hdr [0x10, 0x01, 0x11]))
    (fun t => (t.rxhdr, t.rxn, t.rxfifo, t.phase)) = some (⟨0x10, 0x01⟩, 0, [0x11], .waitB) := by decide

/-- V5.10: one stray byte stays. -/
theorem test_rdhdr_stray : after (exec .rdhdr (inPhase .hdr [0x74])) (fun t => (t.rxfifo, t.evlog, t.phase)) =
    some ([0x74], [], .idle) := by decide

/-- V5.12. -/
theorem test_rddata : after (exec .rddata (afterHeader .data [0x12, 0x34, 0x56, 0x01, 0x15]))
    (fun t => (t.rxdata.bytes.take 4, t.rxfifo, t.phase)) = some ([0x12, 0x34, 0x56, 0x01], [0x15], .waitB) := by decide

/-- V5.13. -/
theorem test_rddata_missing : after (exec .rddata (afterHeader .data [0x12, 0x34, 0x56]))
    (fun t => (t.rxfifo, t.evlog, t.phase)) =
    some ([0x12, 0x34, 0x56], [.err ⟨.missingData, none, some ⟨0x74, 0x04⟩, none, none⟩], .idle) := by decide

/-- V5.16. -/
theorem test_waitB : after (exec .waitB (inPhase .waitB [])) State.phase = some .cks := by decide

/-- V5.17. -/
theorem test_waitB_interrupted : after (exec .waitB { inPhase .waitB [] with intr := true })
    (fun t => (t.evlog, t.cancelOut, t.phase)) = some ([.err ⟨.interrupted, none, none, none, none⟩], 1, .idle) := by decide

/-- V5.19. -/
theorem test_rdcks : after (exec .rdcks (afterHeader .cks [0x15, 0x10, 0x01, 0x11]))
    (fun t => (t.rxcks, t.rxfifo, t.phase)) = some (0x15, [0x10, 0x01, 0x11], .decode) := by decide

/-- V5.20. -/
theorem test_rdcks_missing : after (exec .rdcks (afterHeader .cks [])) (fun t => (t.evlog, t.phase)) =
    some ([.err ⟨.missingChecksum, none, some ⟨0x74, 0x04⟩, some [0x12, 0x34, 0x56, 0x01], none⟩], .idle) := by decide

/-- V5.25 and V5.26: 01:56:34:12; INTR is not examined. -/
theorem test_parse : after (exec .parse { received 0x15 with intr := true })
    (fun t => (t.curTc, t.evlog, t.phase, t.intr)) =
    some (some ⟨1, 56, 34, 12⟩, [.tc ⟨1, 56, 34, 12⟩], .idle, true) := by decide

/-- V7.4. -/
theorem test_parse_mismatch : after (exec .parse (received 0x16)) (fun t => (t.curTc, t.evlog)) =
    some (none, [.err ⟨.checksumMismatch, none, some ⟨0x74, 0x04⟩, some [0x12, 0x34, 0x56, 0x01], some 0x16⟩]) := by decide

/-! ### The parser's arms (V6) -/

/-- V6.17. -/
theorem test_pVerify : after (exec (.pVerify ⟨0x74, 0x05⟩ [0xDE, 0xAD, 0xBE, 0xEF] 0xB0) start)
    (fun t => (t.evlog.length, t.curUbLocal)) = some (1, none) := by decide

/-- V6.14: two equal timecodes are two events. -/
theorem test_pTcLtc_no_dedup : after (exec (.pTcLtc ⟨1, 0, 0, 0⟩) { start with curTc := some ⟨0, 0, 0, 1⟩ })
    (fun t => (t.curTc, t.evlog)) = some (some ⟨0, 0, 0, 1⟩, [.tc ⟨0, 0, 0, 1⟩]) := by decide

/-- V6.2. -/
theorem test_pTcVtc : after (exec (.pTcVtc ⟨0x29, 0x59, 0x59, 0x23⟩) start) State.curTc = some (some ⟨23, 59, 59, 29⟩) := by
  decide

/-- V6.3. -/
theorem test_pTcAltLtc : after (exec (.pTcAltLtc ⟨0x24, 0x15, 0x08, 0x10⟩) start) State.curTc = some (some ⟨10, 8, 15, 24⟩) := by
  decide

/-- V6.4. -/
theorem test_pTcTimer1 : after (exec (.pTcTimer1 ⟨0, 0, 0, 0⟩) start) State.evlog = some [.tc ⟨0, 0, 0, 0⟩] := by decide

/-- V6.5. -/
theorem test_pTcTimer2 : after (exec (.pTcTimer2 ⟨0x05, 0x04, 0x03, 0x02⟩) start) State.curTc = some (some ⟨2, 3, 4, 5⟩) := by
  decide

/-- V6.7. -/
theorem test_pUbLocal : after (exec (.pUbLocal ⟨0x74, 0x05⟩ ⟨0xDE, 0xAD, 0xBE, 0xEF⟩) start)
    (fun t => (t.curUbLocal, t.curUbVert, t.evlog)) =
    some (some ⟨0xDE, 0xAD, 0xBE, 0xEF⟩, none,
      [.ub .localCh ⟨0xDE, 0xAD, 0xBE, 0xEF⟩ ⟨some ⟨0xDE, 0xAD, 0xBE, 0xEF⟩, none⟩]) := by decide

/-- V6.8. -/
theorem test_pUbVert :
    after (exec (.pUbVert ⟨0x74, 0x07⟩ ⟨1, 2, 3, 4⟩) { start with curUbLocal := some ⟨0xDE, 0xAD, 0xBE, 0xEF⟩ })
      (fun t => (t.curUbVert, t.evlog)) =
    some (some ⟨1, 2, 3, 4⟩, [.ub .verticalCh ⟨1, 2, 3, 4⟩ ⟨some ⟨0xDE, 0xAD, 0xBE, 0xEF⟩, some ⟨1, 2, 3, 4⟩⟩]) := by decide

/-- V6.9. -/
theorem test_pStatus : after (exec (.pStatus ⟨0x73, 0x20⟩ [0x00, 0x82, 0x01]) { start with tag := .play })
    (fun t => (t.curState, t.evlog)) =
    some (some (Config.decodeStatus ⟨0x73, 0x20⟩ [0x00, 0x82, 0x01] .play),
      [.state (Config.decodeStatus ⟨0x73, 0x20⟩ [0x00, 0x82, 0x01] .play)]) := rfl

/-- V6.11. -/
theorem test_pDrop : exec (.pDrop ⟨0x11, 0x12⟩ [0x01]) start = .next start := rfl

/-! ### RAISE (V7) and the host (V8) -/

/-- V7.3: nothing but EVLOG, the log and PHASE changes; CANCEL_OUT is not pulsed. -/
theorem test_raise_missingChecksum : after (exec (.raise .missingChecksum none) (afterHeader .cks []))
    (fun t => (t.evlog, t.cancelOut, t.phase)) =
    some ([.err ⟨.missingChecksum, none, some ⟨0x74, 0x04⟩, some [0x12, 0x34, 0x56, 0x01], none⟩], 0, .idle) := by decide

theorem test_raise_interrupted : after (exec (.raise .interrupted none) sending) (fun t => (t.cancelOut, t.phase)) =
    some (1, .idle) := by decide

/-- V8.1. -/
theorem test_requestUserbits : after (exec .requestUserbits { start with hostq := [.command .stop] }) State.hostq =
    some [.command .requestLocalUserbits, .command .requestVerticalUserbits, .command .stop] := by decide

/-- V8.2. -/
theorem test_requestTimestamp : after (exec .requestTimestamp start) (fun t => (t.viStream, t.req, t.txstream)) =
    some ([⟨some (Config.now 0), none⟩], none, []) := rfl

theorem test_requestElapsedTime : after (exec .requestElapsedTime start) (fun t => (t.viStream, t.req, t.txstream)) =
    some ([⟨some (Config.now 0), none⟩], none, []) := rfl

/-- V8.3: a command without an encoding is dropped. -/
theorem test_other_undefined : exec (.otherVideoCommand (.other 9)) start = .next start := rfl

theorem test_other_presented : after (exec (.otherVideoCommand .play) start) State.req =
    some (some ⟨⟨[0x20, 0x01, 0], by decide, by decide⟩, .play⟩) := by decide

/-- V8.5: the second, equal timecode publishes nothing. -/
theorem test_hub_distinct :
    (hubStep (hubStep { start with evlog := [.tc ⟨1, 2, 3, 4⟩, .tc ⟨1, 2, 3, 4⟩] })).viStream =
      [⟨none, some ⟨1, 2, 3, 4⟩⟩] := by decide


/-! ### Witnesses: for each statement with hypotheses, concrete values that meet them, one per clause -/

/-- Does the machine go on? -/
def goesOn (o : Result) : Bool := (after o fun _ => ()).isSome

theorem next_of_goesOn {o : Result} (h : goesOn o = true) : ∃ t, o = .next t := by
  cases o with
  | next t => exact ⟨t, rfl⟩
  | fault _ => exact nomatch h
  | refused _ => exact nomatch h

/-- RDHDR's and its kin's state with the answers of the next primitives. -/
def answering (s : State) (l : List ChanAnswer) : State := { s with chan := l }

/-- `start` with the agents' next moves. -/
def scheduled (l : List Move) (s : State := start) : State := { s with schedule := l }

/-- The idle state with the request of V5.1 presented. -/
def requested : State := { start with req := some tcRequest }

/-- A backlog of one reply without data. -/
def bareReply : List Byte := [0x10, 0x01, 0x11]

/-- The reply of V6.1. -/
def ltcReply : List Byte := [0x74, 0x04, 0x12, 0x34, 0x56, 0x01, 0x15]

theorem witness_TimecodeEncodersWorkOnTheirDomain :
    (0 ≤ (0 : Int) ∧ (0 : Int) ≤ 159) ∧ (0 ≤ (159 : Int) ∧ (159 : Int) ≤ 159) ∧
      ¬(0 ≤ (-1 : Int) ∧ (-1 : Int) ≤ 159) ∧ ¬(0 ≤ (160 : Int) ∧ (160 : Int) ≤ 159) ∧
      (let t : Timecode := ⟨159, 0, 159, 0⟩; t.frames ≤ 159 ∧ t.seconds ≤ 159 ∧ t.minutes ≤ 159 ∧ t.hours ≤ 159) ∧
      (let t : Timecode := ⟨0, 0, 0, 160⟩; ¬(t.frames ≤ 159 ∧ t.seconds ≤ 159 ∧ t.minutes ≤ 159 ∧ t.hours ≤ 159)) := by
  decide

theorem witness_UserbitsCodecKeepsWireOrder :
    (let u : Userbits := ⟨none, some ⟨1, 2, 3, 4⟩⟩; u.localGroup = none ∨ u.verticalGroup = none) ∧
      (let u : Userbits := ⟨some ⟨1, 2, 3, 4⟩, none⟩; u.localGroup = none ∨ u.verticalGroup = none) := by decide

/-- V1: the order of two data bytes; and one byte more in the checksum. -/
theorem witness_VerifyIgnoresOrderAndSeesOneChangedByte :
    [0x12, 0x34].Perm ([0x34, 0x12] : List Byte) ∧
      answers (.verify ⟨0x74, 0x04⟩ [0x12, 0x34, 0x56, 0x01] 0x15) start (.truth true) ∧
      ([0x74, 0x04] : List Byte) ++ [0x12, 0x34, 0x56, 0x01] ++ [0x15] =
        [0x74, 0x04, 0x12, 0x34, 0x56, 0x01] ++ 0x15 :: [] ∧ (0x15 : Byte) ≠ 0x16 ∧
      ([0x74, 0x04] : List Byte) ++ [0x12, 0x34, 0x56, 0x01] ++ [0x16] =
        [0x74, 0x04, 0x12, 0x34, 0x56, 0x01] ++ 0x16 :: [] :=
  ⟨by decide, rfl, by decide, by decide, by decide⟩

theorem witness_TimecodeCodecRoundTrips : (159 : Nat) ≤ 159 ∧
    (let t : Timecode := ⟨159, 159, 159, 159⟩; t.frames ≤ 159 ∧ t.seconds ≤ 159 ∧ t.minutes ≤ 159 ∧ t.hours ≤ 159) := by
  decide

/-- V5.1's frame, and one that announces a data byte it has not; the port free, REQ occupied, a cycle
running, and a command waiting. -/
theorem witness_PresentedFrameIsHeldByThePort :
    Codec.wf tcRequest.frame.bytes = true ∧ Codec.wf ([0x21, 0x00, 0x21] : List Byte) = false ∧
      (start.phase = .idle ∧ start.req = none ∧ start.hostq = []) ∧
      (let s := requested; ¬(s.phase = .idle ∧ s.req = none ∧ s.hostq = [])) ∧
      (let s := sending; ¬(s.phase = .idle ∧ s.req = none ∧ s.hostq = [])) ∧
      (let s : State := { start with hostq := [.command .play] }; ¬(s.phase = .idle ∧ s.req = none ∧ s.hostq = [])) := by
  decide

theorem witness_AcceptStampsAndTakesTheRequest : start.req = none ∧ requested.req = some tcRequest := by decide

/-- TXLEN at 4 and at its largest, the channel silent about its answer and answering `ok`. -/
theorem witness_SendWritesTheWholeFrame :
    (sending.txlen.toNat ≤ 18 ∧ sending.okAnswers 1) ∧
      (let s : State := { sending with txlen := 18, chan := [.ok] }; s.txlen.toNat ≤ 18 ∧ s.okAnswers 1) := by
  simp only [State.okAnswers]; decide

theorem witness_FailedWriteSendsAnyPrefixAndRaises : sending.txlen.toNat ≤ 18 ∧
    (answering sending [.failed (.io 3) 2]).chan = .failed (.io 3) 2 :: [] ∧
    (answering sending [.failed (.interruption 0) 9]).chan = .failed (.interruption 0) 9 :: [] ∧
    [] <+: sending.txbuf.bytes.take sending.txlen.toNat ∧
    sending.txbuf.bytes.take sending.txlen.toNat <+: sending.txbuf.bytes.take sending.txlen.toNat := by
  refine ⟨by decide, rfl, rfl, List.nil_prefix, List.prefix_refl _⟩

theorem witness_WaitsExpireAndSelectTheNextStep : (inPhase .waitA []).intr = false := by decide

theorem witness_PendingInterruptionAbortsTheWaits : { inPhase .waitB [] with intr := true }.intr = true := by decide

/-- Two bytes and no more; none, and one. -/
theorem witness_RdhdrReadsTwoBytesOrEndsSilently :
    ((inPhase .hdr [0x10, 0x01]).rxfifo = 0x10 :: 0x01 :: [] ∧ (inPhase .hdr [0x10, 0x01]).okAnswers 2) ∧
      ((inPhase .hdr []).rxfifo.length < 2 ∧ (inPhase .hdr []).okAnswers 1) ∧
      ((inPhase .hdr [0x74]).rxfifo.length < 2 ∧ (answering (inPhase .hdr [0x74]) [.ok, .never]).okAnswers 1) := by
  simp only [State.okAnswers]; decide

/-- Exactly RXN bytes; one fewer. -/
theorem witness_RddataReadsTheAnnouncedBytesOrRaises :
    (let s := afterHeader .data [0x12, 0x34, 0x56, 0x01]; s.rxn.toNat ≤ s.rxfifo.length ∧ s.okAnswers 2) ∧
      (let s := afterHeader .data [0x12, 0x34, 0x56]; s.rxfifo.length < s.rxn.toNat ∧ s.okAnswers 1) := by
  simp only [State.okAnswers]; decide

theorem witness_RdcksReadsOneByteOrRaises :
    (let s := afterHeader .cks [0x15]; s.rxfifo = 0x15 :: [] ∧ s.okAnswers 2) ∧
      (let s := afterHeader .cks []; s.rxfifo = [] ∧ s.okAnswers 1) := by
  simp only [State.okAnswers]; decide

/-- The RDDATA form, with no byte lost and all of them lost. -/
theorem witness_FailedReadsRaiseByTheirCause :
    let s := afterHeader .data [0x12, 0x34, 0x56, 0x01]
    (Instr.rddata, s.rxn.toNat) ∈ [(Instr.rdhdr, 2), (Instr.rddata, s.rxn.toNat), (Instr.rdcks, 1)] ∧
      (answering s [.failed (.io 1) 0]).chan = .failed (.io 1) 0 :: [] ∧ s.rxn.toNat ≤ s.rxfifo.length ∧
      (answering s [.ok, .failed (.interruption 1) 4]).chan = .ok :: .failed (.interruption 1) 4 :: [] ∧
      0 ≤ s.rxn.toNat ∧ 4 ≤ s.rxn.toNat := by
  decide

theorem witness_SilentChannelHoldsThePhase :
    ((answering sending [.never]).chan = .never :: [] ∧ (answering sending [.never]).txlen.toNat ≤ 18) ∧
      (let s := answering (inPhase .hdr [0x10, 0x01]) [.ok, .never]
       s.chan = .ok :: .never :: [] ∧
        (Instr.rdhdr, 2) ∈ [(Instr.rdhdr, 2), (Instr.rddata, s.rxn.toNat), (Instr.rdcks, 1)] ∧ 2 ≤ s.rxfifo.length) := by
  decide

/-- No data bytes, and four. -/
theorem witness_ParseRunsTheDecodedReply :
    start.rxn.toNat = start.rxhdr.cmd1.toNat % 16 ∧
      (received 0x15).rxn.toNat = (received 0x15).rxhdr.cmd1.toNat % 16 := by decide

theorem witness_ChecksumGateEmitsOneMismatch :
    byteSum ([0x74, 0x04] ++ [0x12, 0x34, 0x56, 0x01]) % 256 ≠ (0x16 : Byte).toNat ∧
      byteSum ([0x74, 0x04] ++ [0x12, 0x34, 0x56, 0x01]) % 256 = (0x15 : Byte).toNat := by decide

/-- A header of each class, and of none, with its length and its checksum. -/
theorem witness_RepliesAreClassifiedInOrder :
    ([0x12, 0x34, 0x56, 0x01] : List Byte).length = (0x74 : Byte).toNat % 16 ∧
      byteSum ([0x74, 0x04] ++ [0x12, 0x34, 0x56, 0x01]) % 256 = (0x15 : Byte).toNat ∧
      byteSum ([0x10, 0x01] ++ []) % 256 = (0x11 : Byte).toNat ∧
      Codec.istc refCfg ⟨0x74, 0x04⟩ = true ∧
      (Codec.istc refCfg ⟨0x74, 0x05⟩ = false ∧ Codec.isubl refCfg ⟨0x74, 0x05⟩ = true) ∧
      (Codec.istc refCfg ⟨0x74, 0x07⟩ = false ∧ Codec.isubl refCfg ⟨0x74, 0x07⟩ = false ∧
        Codec.isubv refCfg ⟨0x74, 0x07⟩ = true) ∧
      (Codec.istc refCfg ⟨0x73, 0x20⟩ = false ∧ Codec.isubl refCfg ⟨0x73, 0x20⟩ = false ∧
        Codec.isubv refCfg ⟨0x73, 0x20⟩ = false ∧ Codec.isstatus refCfg ⟨0x73, 0x20⟩ = true) ∧
      (Codec.istc refCfg ⟨0x10, 0x01⟩ = false ∧ Codec.isubl refCfg ⟨0x10, 0x01⟩ = false ∧
        Codec.isubv refCfg ⟨0x10, 0x01⟩ = false) := by decide

theorem witness_TagReachesOnlyTheStatusDecoder :
    Codec.isstatus (received 0x15).cfg (received 0x15).rxhdr = false ∧ goesOn (exec .parse (received 0x15)) = true := by
  decide

/-- Two states that differ in a cell and in the backlog. -/
theorem witness_ParseEventDependsOnTheReplyOnly :
    let s := received 0x15
    let s' : State := { s with curTc := some ⟨1, 2, 3, 4⟩, rxfifo := [0x10] }
    s.cfg = s'.cfg ∧ s.rxhdr = s'.rxhdr ∧ s.rxn = s'.rxn ∧ s.rxdata = s'.rxdata ∧ s.rxcks = s'.rxcks ∧
      s.tag = s'.tag ∧ s.curUbLocal = s'.curUbLocal ∧ s.curUbVert = s'.curUbVert ∧
      goesOn (exec .parse s) = true ∧ goesOn (exec .parse s') = true :=
  ⟨rfl, rfl, rfl, rfl, rfl, rfl, rfl, rfl, by decide, by decide⟩

/-- A command without an encoding; one with a well-formed frame, and under another table with one that is
not; the block ready, the port occupied, and a cycle running. -/
theorem witness_OtherCommandsAreLookedUp :
    Codec.encodeCmd start.cfg .stop = none ∧
      (let f : Frame := ⟨[0x20, 0x01, 0], by decide, by decide⟩
       Codec.encodeCmd start.cfg .play = some f ∧ Codec.wf f.bytes = true) ∧
      (let f : Frame := ⟨[0x21, 0x00, 0x21], by decide, by decide⟩
       Codec.encodeCmd { refCfg with table := [(.stop, f)] } .stop = some f ∧ Codec.wf f.bytes = false) ∧
      (start.phase = .idle ∧ start.req = none) ∧ ¬(requested.phase = .idle ∧ requested.req = none) ∧
      ¬(sending.phase = .idle ∧ sending.req = none) := by decide

/-- `start` with one unconsumed event and the hub to move. -/
def hubBehind (e : Event) (lv : Option VideoIndex) : State :=
  { scheduled [.hub] with evlog := [e], latestState := some ⟨0⟩, lastVi := lv }

/-- A timecode, a state, a userbits and an error event; with a state known, one of the two recording
clauses applies; and the last value published may be the new one or none. -/
theorem witness_VideoIndexIsDistinctUntilChanged :
    let tc : Event := .tc ⟨1, 2, 3, 4⟩
    let s := hubBehind tc none
    s.schedule = .hub :: [] ∧ s.evlog[s.hubPos]? = some tc ∧
      ((∃ T, tc = .tc T ∧ some (⟨1, 2, 3, 4⟩ : Timecode) = some T ∧ some (⟨0⟩ : RS422State) = s.latestState) ∨
        (∃ v, tc = .state v ∧ some (⟨1, 2, 3, 4⟩ : Timecode) = s.latestTc ∧ some (⟨0⟩ : RS422State) = some v)) ∧
      (hubBehind (.state ⟨5⟩) none).evlog[(hubBehind (.state ⟨5⟩) none).hubPos]? = some (.state ⟨5⟩) ∧
      ((∃ v, s.latestState = some v ∧ Config.isRecording v = true) ∨
        (∀ v, s.latestState = some v → Config.isRecording v = false)) ∧
      (∀ ts, (hubBehind tc (some ⟨ts, some ⟨1, 2, 3, 4⟩⟩)).lastVi = some ⟨ts, some ⟨1, 2, 3, 4⟩⟩) ∧
      (∀ ts : Option Instant, s.lastVi ≠ some ⟨ts, some ⟨1, 2, 3, 4⟩⟩) ∧
      (∃ w g c, Event.ub .localCh ⟨1, 2, 3, 4⟩ ⟨none, none⟩ = .ub w g c) ∧
      (∃ x, Event.err ⟨.missingData, none, none, none, none⟩ = .err x) := by
  refine ⟨rfl, rfl, .inl ⟨_, rfl, rfl, rfl⟩, rfl, ?_, fun _ => rfl, fun _ => nofun, ⟨_, _, _, rfl⟩, ⟨_, rfl⟩⟩
  cases h : Config.isRecording ⟨0⟩
  · exact .inr fun st hs => Option.some.inj hs ▸ h
  · exact .inl ⟨⟨0⟩, rfl, h⟩

theorem witness_WordsDecodeAsTheSpecWritesThem : refCfg.tcHdr.ltc = ⟨7, 4⟩ ∧
    Codec.istc refCfg ⟨0x10, 0x01⟩ = false ∧ Codec.isubl refCfg ⟨0x10, 0x01⟩ = false ∧
    Codec.isubv refCfg ⟨0x10, 0x01⟩ = false ∧ Codec.isstatus refCfg ⟨0x10, 0x01⟩ = false := by decide

/-- A well-formed operation of each family that has a condition. -/
theorem witness_DecodeOfEncodeIsTheOperation :
    (Instr.pVerify ⟨0x74, 0x04⟩ [0x12, 0x34, 0x56, 0x01] 0x16).wellFormed refCfg = true ∧
      (Instr.pTcVtc ⟨1, 2, 3, 4⟩).wellFormed refCfg = true ∧
      (Instr.pUbVert ⟨0x74, 0x07⟩ ⟨1, 2, 3, 4⟩).wellFormed refCfg = true ∧
      (Instr.pStatus ⟨0x73, 0x20⟩ [0, 1, 2]).wellFormed refCfg = true ∧
      (Instr.tc4enc ⟨159, 0, 159, 0⟩).wellFormed refCfg = true ∧
      (Instr.raise .interrupted (some (.interruption 0))).wellFormed refCfg = true ∧
      (Instr.otherVideoCommand .play).wellFormed refCfg = true := by decide

theorem witness_EncodeOfDecodeIsTheImage :
    decode refCfg ⟨.reply, ltcReply⟩ = .ok (.pTcLtc ⟨0x12, 0x34, 0x56, 0x01⟩) := rfl

theorem witness_DecodedOperationsAreWellFormed :
    decode refCfg ⟨.fn .tcenc, [0xF9]⟩ = .ok (.tcenc 159) ∧ decode refCfg ⟨.trap none, [5]⟩ = .ok (.raise .interrupted none) :=
  ⟨rfl, rfl⟩

/-- One state for each clause: framer by the schedule, framer by default (a cycle, a request, nothing to do),
codec, present, dispatcher (a command, a waiting request, a busy block, an empty queue), the hub and the
dispatcher by default. -/
theorem witness_StepRunsTheDecodedOperation :
    ((scheduled [.framer] sending).schedule = .framer :: [] ∧
      decode refCfg ⟨.phase, [BitVec.ofNat 8 (phaseCode sending.phase)]⟩ = .ok .send) ∧
    (sending.schedule = [] ∧ sending.phase ≠ .idle ∧ requested.req ≠ none ∧ start.hostq = [] ∧
      start.evlog.length ≤ start.hubPos ∧
      decode refCfg ⟨.phase, [BitVec.ofNat 8 (phaseCode requested.phase)]⟩ = .ok .accept) ∧
    ((scheduled [.codec .len [0x74]]).schedule = .codec .len [0x74] :: [] ∧
      decode refCfg ⟨.fn .len, [0x74]⟩ = .ok (.len 0x74)) ∧
    ((scheduled [.present tcRequest.frame .play]).schedule = .present tcRequest.frame .play :: [] ∧
      decode refCfg ⟨.request .play, tcRequest.frame.bytes⟩ = .ok (.frame tcRequest.frame .play)) ∧
    (let s : State := { scheduled [.dispatcher] with hostq := [.command .play] };
      s.schedule = .dispatcher :: [] ∧ s.phase = .idle ∧ s.req = none ∧ s.hostq = .command .play :: [] ∧
        decode refCfg ⟨.host .play, []⟩ = .ok (.otherVideoCommand .play)) ∧
    (let s : State := { scheduled [.dispatcher] with hostq := [.request tcRequest] };
      s.schedule = .dispatcher :: [] ∧ s.phase = .idle ∧ s.req = none ∧ s.hostq = .request tcRequest :: []) ∧
    (scheduled [.dispatcher] sending).phase ≠ .idle ∧ (scheduled [.dispatcher]).hostq = [] ∧
    (start.schedule = [] ∧ start.phase = .idle ∧ start.req = none ∧
      ({ start with evlog := [.tc ⟨1, 2, 3, 4⟩] } : State).hubPos < [Event.tc ⟨1, 2, 3, 4⟩].length ∧
      start.evlog.length ≤ start.hubPos ∧ ({ start with hostq := [.command .play] } : State).hostq ≠ []) :=
  ⟨⟨rfl, rfl⟩, ⟨rfl, by decide, by decide, rfl, by decide, rfl⟩, ⟨rfl, rfl⟩, ⟨rfl, rfl⟩, ⟨rfl, rfl, rfl, rfl, rfl⟩,
    ⟨rfl, rfl, rfl, rfl⟩, by decide, rfl, rfl, rfl, rfl, by decide, by decide, by decide⟩

theorem witness_EnvironmentMovesTouchOnlyTheirPort :
    (scheduled [.device bareReply]).schedule = .device bareReply :: [] ∧
      (scheduled [.cancel] sending).schedule = .cancel :: [] ∧
      (scheduled [.channel .never]).schedule = .channel .never :: [] ∧
      (scheduled [.submit .play]).schedule = .submit .play :: [] ∧
      (scheduled [.subscribe .timecode]).schedule = .subscribe .timecode :: [] := ⟨rfl, rfl, rfl, rfl, rfl⟩

/-- The invariant in the middle of a cycle, with the agents' next moves `l`. -/
theorem sending_inv (l : List Move) : (scheduled l sending).Inv where
  txlen_le := show sending.txlen.toNat ≤ 18 by decide
  stamped := fun _ => show 1 ≤ sending.txlen.toNat ∧
    Codec.stamp (sending.txbuf.bytes.take sending.txlen.toNat) = sending.txbuf.bytes.take sending.txlen.toNat by decide
  rxn_eq := show sending.rxn.toNat = Codec.len sending.rxhdr.cmd1 by decide
  data_pos := nofun
  req_idle := fun h => absurd rfl h
  req_wf := nofun
  queue_wf := nofun
  tmr_expired := rfl
  tc_eq := rfl
  ub_local_eq := rfl
  ub_vert_eq := rfl
  state_eq := rfl
  hub_le := Nat.le_refl _
  hub_tc := rfl
  hub_state := rfl
  subscribed := nofun

theorem witness_EveryStepKeepsTheStateInvariant : (scheduled [] sending).Inv ∧ goesOn (step (scheduled [] sending)) = true :=
  ⟨sending_inv [], by decide⟩

/-- A device's move, and a presentation of a well-formed frame. -/
theorem witness_OnlyCodecCallsCanStop :
    let s := scheduled [.device bareReply] sending
    let s' := scheduled [.present tcRequest.frame .play] sending
    (s.Inv ∧ s.cfg.wellFormed = true ∧ (∀ n l r, s.schedule ≠ .codec n l :: r) ∧
      ∀ f g r, s.schedule = .present f g :: r → Codec.wf f.bytes = true) ∧
    (s'.Inv ∧ s'.cfg.wellFormed = true ∧ (∀ n l r, s'.schedule ≠ .codec n l :: r) ∧
      ∀ f g r, s'.schedule = .present f g :: r → Codec.wf f.bytes = true) :=
  ⟨⟨sending_inv _, by decide, fun _ _ _ => nofun, fun _ _ _ => nofun⟩,
    sending_inv _, by decide, fun _ _ _ => nofun, fun f g r h => by
      have : f = tcRequest.frame := by injection h with h; injection h with h; exact h.symm
      rw [this]; decide⟩

/-- A step that emits an event, with a subscriber: a reply is parsed. -/
theorem witness_EventsAreOnlyAppended :
    let s : State := { received 0x15 with subscriptions := [⟨.timecode, 0⟩] }
    after (step s) (fun t => (t.evlog.length, subscriberView t ⟨.timecode, 0⟩)) =
      some (1, [.timecode ⟨1, 56, 34, 12⟩]) ∧ ⟨.timecode, 0⟩ ∈ s.subscriptions := by decide

/-- A step outside DECODE, and in DECODE one of another agent. -/
theorem witness_CellsAndConfigurationKeepTheirOwners :
    (goesOn (step sending) = true ∧ sending.phase ≠ .decode) ∧
      goesOn (step (scheduled [.hub] (received 0x15))) = true ∧ (scheduled [.hub] (received 0x15)).framerWaits :=
  ⟨by decide, by decide, _, _, rfl, nofun⟩

/-- A step that transmits, and one that does not. -/
theorem witness_TransmitStreamGrowsOnlyInSend :
    after (step sending) (fun t => t.txstream.length) = some 4 ∧
      goesOn (step (inPhase .waitA [])) = true ∧ (inPhase .waitA []).phase ≠ .send := by decide

/-- A step that reads, one that finds too little, and one of DEVICE. -/
theorem witness_ReceiveStreamIsNeverFlushed :
    after (step (inPhase .hdr bareReply)) State.rxfifo = some [0x11] ∧
      (goesOn (step (inPhase .hdr [0x74])) = true ∧ (inPhase .hdr [0x74]).rxfifo.length < bytesAsked (inPhase .hdr [0x74])) ∧
      goesOn (step (scheduled [.device bareReply] sending)) = true ∧ (scheduled [.device bareReply] sending).framerWaits :=
  ⟨by decide, by decide, by decide, _, _, rfl, nofun⟩

/-- SEND is outside all four phases. -/
theorem witness_FrameRegistersFollowTheAccessMatrix :
    goesOn (step sending) = true ∧ sending.phase ≠ .idle ∧ sending.phase ≠ .hdr ∧ sending.phase ≠ .data ∧
      sending.phase ≠ .cks := by decide

theorem witness_PhaseFollowsTheTransferTable : after (step (inPhase .hdr bareReply)) State.phase = some .waitB := by decide

theorem witness_PendingInterruptionClearsOnlyWhenObserved :
    let s : State := { inPhase .waitA [] with intr := true }
    after (step s) State.intr = some false ∧ s.intr = true := by decide

theorem witness_OnlyAcceptTakesAPresentedRequest :
    goesOn (step requested) = true ∧ requested.req = some tcRequest := by decide

theorem witness_EveryCycleEnds :
    (scheduled (List.replicate 7 .framer) sending).Inv ∧ (scheduled (List.replicate 7 .framer) sending).channelAnswers ∧
      (scheduled (List.replicate 7 .framer) sending).schedule = List.replicate 7 .framer ++ [] :=
  ⟨sending_inv _, nofun, rfl⟩

/-- The moves of `GoodCycleDeliversTheReply` for a reply. -/
def goodCycle (reply : List Byte) (data : List Move) : State := { requested with
  schedule := [.framer, .framer, .device reply, .framer, .framer] ++ data ++ [.framer, .framer, .framer] }

/-- A reply without data, and one with four bytes. -/
theorem witness_GoodCycleDeliversTheReply :
    (let s := goodCycle ([0x10, 0x01] ++ [] ++ [0x11]) [];
      s.phase = .idle ∧ s.req = some tcRequest ∧ s.intr = false ∧ s.chan = [] ∧ s.rxfifo = [] ∧
        ([] : List Byte).length = (0x10 : Byte).toNat % 16 ∧
        s.schedule = [.framer, .framer, .device ([0x10, 0x01] ++ [] ++ [0x11]), .framer, .framer] ++
          (if ([] : List Byte) = [] then [] else [.framer]) ++ [.framer, .framer, .framer] ++ []) ∧
    (let s := goodCycle ([0x74, 0x04] ++ [0x12, 0x34, 0x56, 0x01] ++ [0x15]) [.framer];
      s.phase = .idle ∧ s.req = some tcRequest ∧ s.intr = false ∧ s.chan = [] ∧ s.rxfifo = [] ∧
        ([0x12, 0x34, 0x56, 0x01] : List Byte).length = (0x74 : Byte).toNat % 16 ∧
        s.schedule = [.framer, .framer, .device ([0x74, 0x04] ++ [0x12, 0x34, 0x56, 0x01] ++ [0x15]), .framer, .framer] ++
          (if ([0x12, 0x34, 0x56, 0x01] : List Byte) = [] then [] else [.framer]) ++ [.framer, .framer, .framer] ++ []) :=
  ⟨⟨rfl, rfl, rfl, rfl, rfl, rfl, rfl⟩, rfl, rfl, rfl, rfl, rfl, rfl, rfl⟩

end Sys2Proof.Tests
end

section
/-! The checksum operations (spec/40_codec_checksum.md): what CKSUM, STAMP and VERIFY leave in the result
port, and the checksum read as a sum over the natural numbers. -/

namespace Sys2Proof.Machine

open Codec

/-! ### The checksum as a byte sum -/

theorem toNat_cksum_eq_byteSum (l : List Byte) : (cksum l).toNat = byteSum l % 256 := toNat_cksum l

theorem cksum_eq_iff_byteSum (l : List Byte) (c : Byte) : cksum l = c ↔ byteSum l % 256 = c.toNat := by
  rw [← BitVec.toNat_inj, toNat_cksum_eq_byteSum]

/-- The byte comparison of R92 as one of sums: two bytes are equal when their numbers are. -/
theorem verify_iff_byteSum (h : Header) (d : List Byte) (c : Byte) :
    verify h d c = true ↔ byteSum ([h.cmd1, h.cmd2] ++ d) % 256 = c.toNat :=
  (verify_iff h d c).trans (cksum_eq_iff_byteSum (h.bytes ++ d) c)

/-! ### The answers of the operations -/

theorem answers_cksum (s : State) (l : List Byte) : answers (.cksum l) s (.byte (cksum l)) := rfl

theorem answers_stamp (s : State) (body : List Byte) (slot : Byte) :
    answers (.stamp body slot) s (.bytes (body ++ [cksum body])) := by
  rw [← stamp_append body slot]
  rfl

theorem answers_verify (s : State) (h : Header) (d : List Byte) (c : Byte) :
    answers (.verify h d c) s (.truth (verify h d c)) := rfl

end Sys2Proof.Machine

open Sys2Proof Sys2Proof.Machine

/-- Settles O1: CKSUM leaves `cksum l`, whose value is the byte sum mod 256. -/
theorem cksumAnswersSumModTwoFiftySix : Obligations.CksumAnswersSumModTwoFiftySix := fun s l =>
  ⟨Codec.cksum l, answers_cksum s l, toNat_cksum_eq_byteSum l⟩

/-- Settles O2: the byte in the slot is the checksum of the body alone, so the old slot has no part in it. -/
theorem stampReplacesTheSlotByTheChecksum : Obligations.StampReplacesTheSlotByTheChecksum := fun s body slot =>
  ⟨Codec.cksum body, toNat_cksum_eq_byteSum body, answers_stamp s body slot⟩

/-- Settles O3: VERIFY leaves `verify h d c`, which compares sums mod 256 because a byte is its number. -/
theorem verifyComparesTheRecomputedChecksum : Obligations.VerifyComparesTheRecomputedChecksum := fun s h d c =>
  ⟨Codec.verify h d c, answers_verify s h d c, verify_iff_byteSum h d c⟩

end

section
/-! The length nibble and the hexadecimal text (spec/41_codec_length.md): what LEN and HEXFMT leave in the
result port, and HEXFMT's recursion read as a join over the bytes. -/

namespace Sys2Proof.Codec

/-- DIGIT (R106) is the table `0..9A..F`, looked up on its sixteen arguments. -/
theorem hexDigit_eq_getD {n : Nat} (hn : n < 16) : hexDigit n = "0123456789ABCDEF".toList.getD n ' ' := by
  have table : ∀ k : Fin 16, hexDigit k = "0123456789ABCDEF".toList.getD k ' ' := by decide
  exact table ⟨n, hn⟩

theorem hex2_eq_getD (b : Byte) : hex2 b =
    ["0123456789ABCDEF".toList.getD (b.toNat / 16) ' ', "0123456789ABCDEF".toList.getD (b.toNat % 16) ' '] := by
  rw [hex2, hexDigit_eq_getD (hi_lt b), hexDigit_eq_getD (lo_lt b), hi, lo]

theorem hexfmt_eq_intercalate (l : List Byte) : hexfmt l = List.intercalate [' '] (l.map hex2) := by
  induction l using hexfmt.induct with
  | case1 => rfl
  | case2 b => rw [hexfmt, List.map_singleton, List.intercalate_singleton]
  | case3 b c rest ih =>
    rw [hexfmt, ih]
    simp only [List.map_cons, List.intercalate_cons_cons, List.append_assoc, List.singleton_append]

end Sys2Proof.Codec

namespace Sys2Proof.Machine

theorem answers_len (s : State) (b : Byte) : answers (.len b) s (.count (lo b)) := rfl

theorem answers_hexfmt (s : State) (l : List Byte) : answers (.hexfmt l) s (.text (Codec.hexfmt l)) := rfl

end Sys2Proof.Machine

open Sys2Proof Sys2Proof.Machine

/-- Settles O7: HEXFMT leaves the join of the bytes' `hex2` texts, and `hex2` reads both digits from the table. -/
theorem hexfmtWritesTwoDigitsPerByte : Obligations.HexfmtWritesTwoDigitsPerByte := by
  intro s l
  rw [← funext Codec.hex2_eq_getD, ← Codec.hexfmt_eq_intercalate]
  exact answers_hexfmt s l

/-- Settles O4: LEN leaves `lo b`, which is `b mod 16` by definition (R9). -/
theorem lenReadsTheLowNibble : Obligations.LenReadsTheLowNibble := answers_len

end

section
/-! The timecode decoders (spec/42_codec_timecode.md): what TCDEC and TC4DEC leave in the result port, and
TCDEC's formula in a byte's number. -/

namespace Sys2Proof.Codec

/-- R110 over the number of the byte: R9 reads the nibbles as quotient and remainder by 16. -/
theorem tcdec_eq_toNat (b : Byte) : tcdec b = 10 * (b.toNat / 16) + b.toNat % 16 := rfl

end Sys2Proof.Codec

namespace Sys2Proof.Machine

theorem answers_tcdec (s : State) (b : Byte) : answers (.tcdec b) s (.count (Codec.tcdec b)) := rfl

theorem answers_tc4dec (s : State) (d : Quad) : answers (.tc4dec d) s (.timecode (Codec.tc4dec d)) := rfl

end Sys2Proof.Machine

open Sys2Proof Sys2Proof.Machine

/-- Settles O8: TCDEC leaves `tcdec b`, at most 165 because neither nibble passes 15. -/
theorem tcdecIsTenTimesTensPlusUnits : Obligations.TcdecIsTenTimesTensPlusUnits := fun s b =>
  ⟨Codec.tcdec b, answers_tcdec s b, Codec.tcdec_eq_toNat b, Codec.tcdec_le b⟩

/-- Settles O10: TC4DEC leaves `tc4dec d`, whose fields are `tcdec` of the four bytes in wire order. -/
theorem timecodePayloadsDecodeInWireOrder : Obligations.TimecodePayloadsDecodeInWireOrder := fun s d =>
  ⟨Codec.tc4dec d, answers_tc4dec s d, Codec.tcdec_eq_toNat d.b0, Codec.tcdec_eq_toNat d.b1,
    Codec.tcdec_eq_toNat d.b2, Codec.tcdec_eq_toNat d.b3⟩

end

section
/-! The status decoder (spec/43_codec_userbits_status.md): what STDEC leaves in the result port. -/

namespace Sys2Proof.Machine

theorem answers_stdec (s : State) (h : Header) (d : List Byte) (g : VideoCommand) :
    answers (.stdec h d g) s (.status (Codec.stdec h d g)) := rfl

end Sys2Proof.Machine

namespace Sys2Proof.Codec

/-- R124: STDEC is `P.decode_status` itself, of which nothing is assumed. -/
theorem stdec_eq_decodeStatus (h : Header) (d : List Byte) (g : VideoCommand) :
    stdec h d g = Config.decodeStatus h d g := rfl

end Sys2Proof.Codec

open Sys2Proof Sys2Proof.Machine

/-- Settles O13: STDEC leaves `stdec h d g`, which is `P.decode_status` of its three arguments. -/
theorem stdecIsTheStatusDecoder : Obligations.StdecIsTheStatusDecoder := by
  intro s h d g
  rw [← Codec.stdec_eq_decodeStatus]
  exact answers_stdec s h d g

end

section
/-! The framer's two ends (spec/44_framer_cycle.md): ACCEPT stamps the presented frame into TXBUF (R131), and
PARSE does what the received reply decodes to (R138). -/

namespace Sys2Proof.Machine

/-! ### PARSE -/

/-- RXN is at most 15, so the received data never runs past RXDATA. -/
theorem length_take_rxdata (s : State) : (s.rxdata.bytes.take s.rxn.toNat).length = s.rxn.toNat := by
  have := s.rxn.isLt
  rw [List.length_take, s.rxdata.len]
  omega

/-- R138: on a reply of the announced length PARSE runs the decoded arm on the state with the log line. -/
theorem exec_parse_runs_replyInstr {s : State} (h : s.rxn.toNat = Codec.len s.rxhdr.cmd1) :
    ∃ t,
      exec (replyInstr s.cfg s.rxhdr (s.rxdata.bytes.take s.rxn.toNat) s.rxcks)
        (s.debugLog (.inbound (Codec.hexfmt (s.rxhdr.bytes ++ s.rxdata.bytes.take s.rxn.toNat ++ [s.rxcks])))) = .next t ∧
      exec .parse s = .next (t.setPhase .idle) :=
  ⟨_, exec_replyInstr (s.debugLog _) s.rxhdr _ s.rxcks, (execParse_eq s).trans (if_pos h)⟩

/-! ### ACCEPT -/

theorem exec_accept_of_req_none {s : State} (h : s.req = none) :
    exec .accept s = .next { s with phase := .idle } := by
  obtain ⟨-, he⟩ | ⟨r, hr, -⟩ := execAccept_cases s
  · exact he
  · simp [h] at hr

/-- TXBUF after ACCEPT of the frame `f`: STAMP(f) over the front of the old contents. -/
def stampInto (b : Buffer 18) (f : Frame) : Buffer 18 :=
  Buffer.ofList 18 (Codec.stamp f.bytes ++ b.bytes.drop f.bytes.length)

theorem exec_accept_of_req_some {s : State} {r : Request} (h : s.req = some r) :
    exec .accept s = .next { s with
      txbuf := stampInto s.txbuf r.frame
      txlen := BitVec.ofNat 5 r.frame.bytes.length
      tag := r.tag
      req := none
      phase := .send } := by
  obtain ⟨hr, -⟩ | ⟨r', hr, he⟩ := execAccept_cases s
  · simp [h] at hr
  · cases h.symm.trans hr
    exact he

/-- A request's length fits TXLEN. -/
theorem toNat_txlen_of_frame (f : Frame) : (BitVec.ofNat 5 f.bytes.length).toNat = f.bytes.length := by
  have := f.le
  rw [BitVec.toNat_ofNat, Nat.mod_eq_of_lt (by omega)]

theorem length_stamp_frame (f : Frame) : (Codec.stamp f.bytes).length = f.bytes.length :=
  Codec.length_stamp (List.ne_nil_of_length_pos f.pos)

theorem bytes_stampInto (b : Buffer 18) (f : Frame) :
    (stampInto b f).bytes = Codec.stamp f.bytes ++ b.bytes.drop f.bytes.length := by
  rw [stampInto, ← length_stamp_frame f]
  exact Buffer.bytes_front b (length_stamp_frame f ▸ f.le)

theorem take_bytes_stampInto (b : Buffer 18) (f : Frame) :
    (stampInto b f).bytes.take f.bytes.length = Codec.stamp f.bytes := by
  rw [bytes_stampInto, List.take_left' (length_stamp_frame f)]

theorem drop_bytes_stampInto (b : Buffer 18) (f : Frame) :
    (stampInto b f).bytes.drop f.bytes.length = b.bytes.drop f.bytes.length := by
  rw [bytes_stampInto, List.drop_left' (length_stamp_frame f)]

end Sys2Proof.Machine

open Sys2Proof Sys2Proof.Machine

/-- Settles O28: the received bytes split into the parts PARSE reads, so they decode to the arm it runs; the
announced length rules out the refusal. -/
theorem parseRunsTheDecodedReply : Obligations.ParseRunsTheDecodedReply := by
  intro s hn
  obtain ⟨t, harm, hparse⟩ := exec_parse_runs_replyInstr hn
  have hdec := decode_reply (P := s.cfg) s.rxcks ((length_take_rxdata s).trans hn)
  exact ⟨_, _, t, hdec, answers_hexfmt s _, harm, hparse⟩

/-- Settles O18: the frame is its body and a last byte, the slot, which STAMP replaces; TXBUF is long enough
for every frame the port can carry. -/
theorem acceptStampsAndTakesTheRequest : Obligations.AcceptStampsAndTakesTheRequest := by
  refine fun s => ⟨exec_accept_of_req_none, fun r hr => ?_⟩
  have hne := List.ne_nil_of_length_pos r.frame.pos
  refine ⟨_, _, r.frame.bytes.dropLast, r.frame.bytes.getLast hne, Codec.cksum r.frame.bytes.dropLast,
    exec_accept_of_req_some hr, toNat_txlen_of_frame r.frame, (List.dropLast_concat_getLast hne).symm,
    toNat_cksum_eq_byteSum _, ?_, ?_⟩
  · rw [toNat_txlen_of_frame]
    exact take_bytes_stampInto s.txbuf r.frame
  · rw [toNat_txlen_of_frame]
    exact drop_bytes_stampInto s.txbuf r.frame

end

section
/-! The response parser's arms (spec/45_response_parser.md): the state each arm leaves, with the cell it
overwrites and the event it publishes (R153 to R157). -/

namespace Sys2Proof.Codec

/-- R120: the payload of a userbits reply is its group, byte for byte. -/
theorem ubdec_eq (d : Quad) : ubdec d = d := rfl

end Sys2Proof.Codec

namespace Sys2Proof.Machine

/-! ### What an arm leaves -/

theorem tcArm_eq (s : State) (d : Quad) : tcArm s d = { s with
    curTc := some (Codec.tc4dec d), evlog := s.evlog ++ [.tc (Codec.tc4dec d)] } := rfl

theorem ubLocalArm_eq (s : State) (d : Quad) : ubLocalArm s d = { s with
    curUbLocal := some d, evlog := s.evlog ++ [.ub .localCh d ⟨some d, s.curUbVert⟩] } := by
  rw [ubLocalArm, Codec.ubdec_eq, State.emit]

theorem ubVertArm_eq (s : State) (d : Quad) : ubVertArm s d = { s with
    curUbVert := some d, evlog := s.evlog ++ [.ub .verticalCh d ⟨s.curUbLocal, some d⟩] } := by
  rw [ubVertArm, Codec.ubdec_eq, State.emit]

theorem statusArm_eq (s : State) (h : Header) (d : List Byte) (g : VideoCommand) : statusArm s h d g = { s with
    curState := some (Config.decodeStatus h d g)
    evlog := s.evlog ++ [.state (Config.decodeStatus h d g)] } := by
  rw [statusArm, Codec.stdec_eq_decodeStatus, State.emit]

/-! ### The arm each operation runs -/

/-- R153: the five timecode operations differ in their header alone, which selects the one arm they share. -/
theorem exec_timecode_reply {i : Instr} {d : Quad} (s : State)
    (hi : i ∈ [Instr.pTcLtc d, .pTcVtc d, .pTcAltLtc d, .pTcTimer1 d, .pTcTimer2 d]) :
    exec i s = .next (tcArm s d) := by
  simp only [List.mem_cons, List.not_mem_nil, or_false] at hi
  obtain rfl | rfl | rfl | rfl | rfl := hi <;> rfl

theorem exec_pUbLocal (s : State) (h : Header) (d : Quad) : exec (.pUbLocal h d) s = .next (ubLocalArm s d) := rfl

theorem exec_pUbVert (s : State) (h : Header) (d : Quad) : exec (.pUbVert h d) s = .next (ubVertArm s d) := rfl

theorem exec_pStatus (s : State) (h : Header) (d : List Byte) :
    exec (.pStatus h d) s = .next (statusArm s h d s.tag) := rfl

theorem exec_pDrop (s : State) (h : Header) (d : List Byte) : exec (.pDrop h d) s = .next s := rfl

end Sys2Proof.Machine

open Sys2Proof Sys2Proof.Machine

/-- Settles O30: all five operations run `tcArm`, whose timecode has `tcdec` of the four bytes for its fields. -/
theorem timecodeRepliesOverwriteAndPublish : Obligations.TimecodeRepliesOverwriteAndPublish := by
  refine fun s d => ⟨Codec.tc4dec d, Codec.tcdec_eq_toNat d.b0, Codec.tcdec_eq_toNat d.b1,
    Codec.tcdec_eq_toNat d.b2, Codec.tcdec_eq_toNat d.b3, fun i hi => ?_⟩
  rw [exec_timecode_reply s hi, tcArm_eq]

/-- Settles O31: each operation runs its field's arm, and the group it stores is the payload itself. -/
theorem userbitsRepliesWriteTheirOwnCell : Obligations.UserbitsRepliesWriteTheirOwnCell := by
  refine fun s h d => ⟨?_, ?_⟩
  · rw [exec_pUbLocal, ubLocalArm_eq]
  · rw [exec_pUbVert, ubVertArm_eq]

/-- Settles O32: P_STATUS runs `statusArm` with TAG, whose cell and event are `P.decode_status`; P_DROP answers
the state it was given. -/
theorem statusRepliesPublishAndOthersDrop : Obligations.StatusRepliesPublishAndOthersDrop := by
  refine fun s h d => ⟨Config.decodeStatus h d s.tag, rfl, ?_, exec_pDrop s h d⟩
  rw [exec_pStatus, statusArm_eq]

end

section
/-! Decoding and encoding (spec/30_encoding.md): for each part of the decoder what it accepts, as an `↔` or an
equation. Read one way they say that what is accepted is well formed and is the image of what it decodes to, read
the other way that the image of a well-formed operation is accepted. -/

namespace Sys2Proof

open Codec

/-! ### Canonical timecode bytes -/

theorem Codec.tcencDomain_iff (v : Int) : tcencDomain v = true ↔ 0 ≤ v ∧ v ≤ 159 := by simp [tcencDomain]

theorem Codec.tc4encDomain_iff (t : Timecode) :
    tc4encDomain t = true ↔ t.frames ≤ 159 ∧ t.seconds ≤ 159 ∧ t.minutes ≤ 159 ∧ t.hours ≤ 159 := by
  simp [tc4encDomain, and_assoc]

theorem Codec.lo_tcenc_le {v : Nat} (h : v ≤ 159) : lo (tcenc v) ≤ 9 := by
  rw [tcenc, lo_nibbles (by omega) (by omega)]; omega

theorem Codec.tcdec_le_of_lo {b : Byte} (h : lo b ≤ 9) : tcdec b ≤ 159 := by
  have := hi_lt b; unfold tcdec; omega

theorem Codec.tc4dec_tc4enc {t : Timecode} (h : tc4encDomain t = true) : tc4dec (tc4enc t) = t := by
  obtain ⟨hf, hs, hm, hh⟩ := (tc4encDomain_iff t).1 h
  simp only [tc4dec, tc4enc, tcdec_tcenc hf, tcdec_tcenc hs, tcdec_tcenc hm, tcdec_tcenc hh]

/-! ### The operands of the codec functions -/

theorem dropLast_concat_getLastD {l : List Byte} (h : l ≠ []) : l.dropLast ++ [l.getLastD 0] = l := by
  rw [List.getLastD_eq_getLast?, List.getLast?_eq_some_getLast h]
  exact List.dropLast_concat_getLast h

theorem oneByte_ok_iff {l : List Byte} {k : Byte → Instr} {i : Instr} :
    oneByte l k = .ok i ↔ ∃ b, l = [b] ∧ i = k b := by
  constructor
  · intro hk
    unfold oneByte at hk
    split at hk <;> cases hk
    exact ⟨_, rfl, rfl⟩
  · rintro ⟨b, rfl, rfl⟩; rfl

theorem headerOperand_ok_iff {l : List Byte} {k : Header → Instr} {i : Instr} :
    headerOperand l k = .ok i ↔ ∃ h : Header, l = h.bytes ∧ i = k h := by
  constructor
  · intro hk
    unfold headerOperand at hk
    split at hk <;> cases hk
    exact ⟨⟨_, _⟩, rfl, rfl⟩
  · rintro ⟨h, rfl, rfl⟩; rfl

theorem quadOperand_ok_iff {l : List Byte} {k : Quad → Instr} {i : Instr} :
    quadOperand l k = .ok i ↔ ∃ q : Quad, l = q.bytes ∧ i = k q := by
  constructor
  · intro hk
    unfold quadOperand at hk
    split at hk <;> cases hk
    exact ⟨⟨_, _, _, _⟩, rfl, rfl⟩
  · rintro ⟨q, rfl, rfl⟩; rfl

theorem stampOperand_ok_iff {l : List Byte} {i : Instr} :
    stampOperand l = .ok i ↔ ∃ body slot, l = body ++ [slot] ∧ i = .stamp body slot := by
  constructor
  · intro hk
    unfold stampOperand at hk
    split at hk <;> cases hk
    exact ⟨_, _, (dropLast_concat_getLastD (by simpa using ‹¬l.isEmpty = true›)).symm, rfl⟩
  · rintro ⟨body, slot, rfl, rfl⟩
    simp [stampOperand, List.getLastD_eq_getLast?]

/-- A byte is TCENC's image exactly when its units nibble is at most 9 (R111). -/
theorem tcencOperand_ok_iff {l : List Byte} {i : Instr} :
    tcencOperand l = .ok i ↔ ∃ v : Nat, v ≤ 159 ∧ l = [tcenc v] ∧ i = .tcenc v := by
  constructor
  · intro hk
    unfold tcencOperand at hk
    split at hk
    · rename_i b
      split at hk <;> cases hk
      have hb : lo b ≤ 9 := ‹_›
      exact ⟨tcdec b, tcdec_le_of_lo hb, by rw [tcenc_tcdec hb], rfl⟩
    · cases hk
  · rintro ⟨v, hv, rfl, rfl⟩
    simp only [tcencOperand, lo_tcenc_le hv, if_true, tcdec_tcenc hv]

theorem tc4encOperand_ok_iff {l : List Byte} {i : Instr} :
    tc4encOperand l = .ok i ↔ ∃ t, tc4encDomain t = true ∧ l = (tc4enc t).bytes ∧ i = .tc4enc t := by
  constructor
  · intro hk
    unfold tc4encOperand at hk
    split at hk
    · rename_i a b c d
      split at hk <;> cases hk
      obtain ⟨ha, hb, hc, hd⟩ : lo a ≤ 9 ∧ lo b ≤ 9 ∧ lo c ≤ 9 ∧ lo d ≤ 9 := ‹_›
      refine ⟨tc4dec ⟨a, b, c, d⟩, ?_, ?_, rfl⟩
      · exact (tc4encDomain_iff _).2 ⟨tcdec_le_of_lo ha, tcdec_le_of_lo hb, tcdec_le_of_lo hc, tcdec_le_of_lo hd⟩
      · simp [tc4enc, tc4dec, Quad.bytes, tcenc_tcdec ha, tcenc_tcdec hb, tcenc_tcdec hc, tcenc_tcdec hd]
    · cases hk
  · rintro ⟨t, ht, rfl, rfl⟩
    obtain ⟨hf, hs, hm, hh⟩ := (tc4encDomain_iff t).1 ht
    exact (if_pos ⟨lo_tcenc_le hf, lo_tcenc_le hs, lo_tcenc_le hm, lo_tcenc_le hh⟩).trans
      (congrArg (Except.ok <| Instr.tc4enc ·) (tc4dec_tc4enc ht))

theorem ubpackOperand_ok_iff {l : List Byte} {i : Instr} :
    ubpackOperand l = .ok i ↔ ∃ q v : Quad, l = q.bytes ++ v.bytes ∧ i = .ubpack ⟨some q, some v⟩ := by
  constructor
  · intro hk
    unfold ubpackOperand at hk
    split at hk <;> cases hk
    match l, ‹l.length = 8› with
    | [a, b, c, d, e, f, g, h], _ => exact ⟨⟨a, b, c, d⟩, ⟨e, f, g, h⟩, rfl, rfl⟩
  · rintro ⟨q, v, rfl, rfl⟩; rfl

/-- A sequence of at least two bytes is the header at its front and the rest. -/
theorem Header.bytes_ofList_append_drop {l : List Byte} (h : 2 ≤ l.length) :
    (Header.ofList l).bytes ++ l.drop 2 = l := by
  match l, h with
  | a :: b :: rest, _ => rfl

theorem verifyOperand_ok_iff {l : List Byte} {i : Instr} :
    verifyOperand l = .ok i ↔ ∃ (h : Header) (d : List Byte) (c : Byte),
      d.length ≤ maxData ∧ l = h.bytes ++ d ++ [c] ∧ i = .verify h d c := by
  constructor
  · intro hk
    unfold verifyOperand at hk
    split at hk <;> cases hk
    obtain ⟨h3, h18⟩ : 3 ≤ l.length ∧ l.length ≤ 18 := ‹_›
    refine ⟨Header.ofList l, (l.drop 2).dropLast, l.getLastD 0, by simp [maxData]; omega, ?_, rfl⟩
    have hl : l.getLastD 0 = (l.drop 2).getLastD 0 := by
      rw [List.getLastD_eq_getLast?, List.getLastD_eq_getLast?, List.getLast?_drop, if_neg (by omega)]
    have hne : l.drop 2 ≠ [] := by rw [Ne, List.drop_eq_nil_iff]; omega
    rw [hl, List.append_assoc, dropLast_concat_getLastD hne, Header.bytes_ofList_append_drop (by omega)]
  · rintro ⟨h, d, c, hd, rfl, rfl⟩
    have hlen : 3 ≤ (h.bytes ++ d ++ [c]).length ∧ (h.bytes ++ d ++ [c]).length ≤ 18 := by
      simp only [maxData] at hd; simp; omega
    have hc : (h.bytes ++ d ++ [c]).getLastD 0 = c := by simp [List.getLastD_eq_getLast?]
    have hd : ((h.bytes ++ d ++ [c]).drop 2).dropLast = d := by simp [Header.bytes]
    rw [verifyOperand, if_pos hlen, hc, hd]
    rfl

theorem stdecOperand_ok_iff {l : List Byte} {g : VideoCommand} {i : Instr} :
    stdecOperand l g = .ok i ↔ ∃ (h : Header) (d : List Byte),
      d.length = len h.cmd1 ∧ l = h.bytes ++ d ∧ i = .stdec h d g := by
  constructor
  · intro hk
    unfold stdecOperand at hk
    split at hk <;> cases hk
    obtain ⟨h2, hlen⟩ : 2 ≤ l.length ∧ l.length = 2 + len (l.getD 0 0) := ‹_›
    exact ⟨Header.ofList l, l.drop 2, by simp only [List.length_drop, Header.ofList]; omega,
      (Header.bytes_ofList_append_drop h2).symm, rfl⟩
  · rintro ⟨h, d, hd, rfl, rfl⟩
    have hlen : 2 ≤ (h.bytes ++ d).length ∧ (h.bytes ++ d).length = 2 + len ((h.bytes ++ d).getD 0 0) := by
      simp [Header.bytes, hd]; omega
    rw [stdecOperand, if_pos hlen]
    rfl

/-! ### Requests, phases, labels, commands -/

theorem requestInstr_ok_iff {l : List Byte} {g : VideoCommand} {i : Instr} :
    requestInstr l g = .ok i ↔ ∃ f : Frame, wf f.bytes = true ∧ l = f.bytes ∧ i = .frame f g := by
  constructor
  · intro hk
    unfold requestInstr at hk
    split at hk
    · split at hk <;> cases hk
      exact ⟨⟨l, _, _⟩, ‹_›, rfl, rfl⟩
    · cases hk
  · rintro ⟨f, hw, rfl, rfl⟩
    simp [requestInstr, f.pos, f.le, hw]

/-- An error label accepted with a cause is the label of a kind that carries the cause (R185). -/
theorem trapInstr_ok_iff {b : Byte} {c : Option Cause} {i : Instr} :
    trapInstr b.toNat c = .ok i ↔ ∃ k, causeFits k c = true ∧ b = labelOfKind k ∧ i = .raise k c := by
  have label : ∀ {k}, kindOfLabel b.toNat = .ok k → b = labelOfKind k := by
    intro k hk
    apply BitVec.eq_of_toNat_eq
    unfold kindOfLabel at hk
    split at hk <;> cases hk <;> assumption
  constructor
  · intro hk
    unfold trapInstr at hk
    split at hk
    · rename_i k hkind
      split at hk <;> cases hk
      exact ⟨k, ‹_›, label hkind, rfl⟩
    · cases hk
  · rintro ⟨k, hf, rfl, rfl⟩
    cases k <;> exact if_pos hf

/-- A phase code accepted is the image of its framer step (R85). -/
theorem encode_phaseInstr {b : Byte} {i : Instr} (h : phaseInstr b.toNat = .ok i) (P : Config) :
    i.wellFormed P = true ∧ encode P i = ⟨.phase, [b]⟩ := by
  unfold phaseInstr at h
  split at h <;> cases h <;>
    exact ⟨rfl, congrArg (Image.mk .phase [·]) (BitVec.eq_of_toNat_eq (Eq.symm ‹_›))⟩

theorem encode_hostInstr (P : Config) (c : VideoCommand) :
    (hostInstr c).wellFormed P = true ∧ encode P (hostInstr c) = ⟨.host c, []⟩ := by
  cases c <;> exact ⟨rfl, rfl⟩

theorem hostInstr_of_not_isPseudo {c : VideoCommand} (h : isPseudo c = false) : hostInstr c = .otherVideoCommand c := by
  unfold hostInstr
  split
  · cases h
  · cases h
  · cases h
  · rfl

/-! ### Replies -/

/-- The arm a reply selects, with the tests that select it: one constructor for each branch of R150 and R152. -/
inductive ReplyArm (P : Config) (h : Header) (d : List Byte) (c : Byte) : Instr → Prop where
  | mismatch (hv : verify h d c = false) : ReplyArm P h d c (.pVerify h d c)
  | ltc (hv : verify h d c = true) (hh : h = P.tcHdr.ltc.header) : ReplyArm P h d c (.pTcLtc (Quad.ofList d))
  | vtc (hv : verify h d c = true) (hh : h = P.tcHdr.vtc.header) (hl : h ≠ P.tcHdr.ltc.header) :
      ReplyArm P h d c (.pTcVtc (Quad.ofList d))
  | altLtc (hv : verify h d c = true) (hh : h = P.tcHdr.altLtc.header) (hl : h ≠ P.tcHdr.ltc.header)
      (hvt : h ≠ P.tcHdr.vtc.header) : ReplyArm P h d c (.pTcAltLtc (Quad.ofList d))
  | timer1 (hv : verify h d c = true) (hh : h = P.tcHdr.timer1.header) (hl : h ≠ P.tcHdr.ltc.header)
      (hvt : h ≠ P.tcHdr.vtc.header) (ha : h ≠ P.tcHdr.altLtc.header) : ReplyArm P h d c (.pTcTimer1 (Quad.ofList d))
  | timer2 (hv : verify h d c = true) (hh : h = P.tcHdr.timer2.header) (hl : h ≠ P.tcHdr.ltc.header)
      (hvt : h ≠ P.tcHdr.vtc.header) (ha : h ≠ P.tcHdr.altLtc.header) (h1 : h ≠ P.tcHdr.timer1.header) :
      ReplyArm P h d c (.pTcTimer2 (Quad.ofList d))
  | ubLocal (hv : verify h d c = true) (ht : istc P h = false) (hu : isubl P h = true) :
      ReplyArm P h d c (.pUbLocal h (Quad.ofList d))
  | ubVert (hv : verify h d c = true) (ht : istc P h = false) (hl : isubl P h = false) (hu : isubv P h = true) :
      ReplyArm P h d c (.pUbVert h (Quad.ofList d))
  | status (hv : verify h d c = true) (ht : istc P h = false) (hl : isubl P h = false) (hu : isubv P h = false)
      (hs : isstatus P h = true) : ReplyArm P h d c (.pStatus h d)
  | drop (hv : verify h d c = true) (ht : istc P h = false) (hl : isubl P h = false) (hu : isubv P h = false)
      (hs : isstatus P h = false) : ReplyArm P h d c (.pDrop h d)

theorem istc_eq_false_iff (P : Config) (h : Header) : istc P h = false ↔
    h ≠ P.tcHdr.ltc.header ∧ h ≠ P.tcHdr.vtc.header ∧ h ≠ P.tcHdr.altLtc.header ∧ h ≠ P.tcHdr.timer1.header ∧
      h ≠ P.tcHdr.timer2.header := by
  simp [istc, and_assoc]

theorem replyArm_replyInstr (P : Config) (h : Header) (d : List Byte) (c : Byte) :
    ReplyArm P h d c (replyInstr P h d c) := by
  unfold replyInstr
  cases hv : verify h d c with
  | false => exact .mismatch hv
  | true =>
    simp only [Bool.not_true, Bool.false_eq_true, if_false, beq_iff_eq]
    split
    · exact .ltc hv ‹_›
    split
    · exact .vtc hv ‹_› ‹_›
    split
    · exact .altLtc hv ‹_› ‹_› ‹_›
    split
    · exact .timer1 hv ‹_› ‹_› ‹_› ‹_›
    split
    · exact .timer2 hv ‹_› ‹_› ‹_› ‹_› ‹_›
    have ht : istc P h = false := (istc_eq_false_iff P h).2 ⟨‹_›, ‹_›, ‹_›, ‹_›, ‹_›⟩
    split
    · exact .ubLocal hv ht ‹_›
    split
    · exact .ubVert hv ht (by simpa using ‹¬isubl P h = true›) ‹_›
    split
    · exact .status hv ht (by simpa using ‹¬isubl P h = true›) (by simpa using ‹¬isubv P h = true›) ‹_›
    · exact .drop hv ht (by simpa using ‹¬isubl P h = true›) (by simpa using ‹¬isubv P h = true›)
        (by simpa using ‹¬isstatus P h = true›)

/-- The tests of R152 are exclusive in their order: a reply selects one arm. -/
theorem ReplyArm.unique {P : Config} {h : Header} {d : List Byte} {c : Byte} {i : Instr} (ha : ReplyArm P h d c i) :
    replyInstr P h d c = i := by
  cases ha <;> simp_all [replyInstr, istc_eq_false_iff]

section
variable {P : Config} {h : Header} {d : List Byte} {c : Byte} {i : Instr}

theorem ReplyArm.eq_pVerify_iff (ha : ReplyArm P h d c i) : i = .pVerify h d c ↔ verify h d c = false := by
  cases ha <;> simp_all

theorem ReplyArm.mem_of_istc (ha : ReplyArm P h d c i) (hv : verify h d c = true) (ht : istc P h = true) :
    i ∈ [Instr.pTcLtc (Quad.ofList d), .pTcVtc (Quad.ofList d), .pTcAltLtc (Quad.ofList d), .pTcTimer1 (Quad.ofList d),
      .pTcTimer2 (Quad.ofList d)] := by
  cases ha <;> simp_all

theorem ReplyArm.eq_of_isubl (ha : ReplyArm P h d c i) (hv : verify h d c = true) (ht : istc P h = false)
    (hl : isubl P h = true) : i = .pUbLocal h (Quad.ofList d) := by
  cases ha <;> simp_all [istc_eq_false_iff]

theorem ReplyArm.eq_of_isubv (ha : ReplyArm P h d c i) (hv : verify h d c = true) (ht : istc P h = false)
    (hl : isubl P h = false) (hu : isubv P h = true) : i = .pUbVert h (Quad.ofList d) := by
  cases ha <;> simp_all [istc_eq_false_iff]

theorem ReplyArm.eq_of_no_payload (ha : ReplyArm P h d c i) (hv : verify h d c = true) (ht : istc P h = false)
    (hl : isubl P h = false) (hu : isubv P h = false) :
    i = if isstatus P h then .pStatus h d else .pDrop h d := by
  cases ha <;> simp_all [istc_eq_false_iff]

end

theorem noClassBefore_iff (P : Config) (h : Header) (n : Nat) : noClassBefore P h n = true ↔
    (1 ≤ n → istc P h = false) ∧ (2 ≤ n → isubl P h = false) ∧ (3 ≤ n → isubv P h = false) ∧
      (4 ≤ n → isstatus P h = false) := by
  simp only [noClassBefore, Bool.and_eq_true, Bool.or_eq_true, decide_eq_true_eq, Bool.not_eq_true', and_assoc,
    ← Nat.not_le, ← Decidable.imp_iff_not_or]

theorem ReplyArm.wellFormed {P : Config} {h : Header} {d : List Byte} {c : Byte} {i : Instr} (ha : ReplyArm P h d c i)
    (hd : d.length = len h.cmd1) : i.wellFormed P = true := by
  cases ha <;> simp_all [Instr.wellFormed, noClassBefore_iff]

theorem replyFrame_of_verify {h : Header} {d : List Byte} {c : Byte} (hv : verify h d c = true) :
    replyFrame h d = h.bytes ++ d ++ [c] := by
  rw [replyFrame, (verify_iff h d c).1 hv]

/-- The payload of a timecode or userbits reply is the whole of its data (R80). -/
theorem replyFrame_quad {h : Header} {d : List Byte} {c : Byte} (hv : verify h d c = true)
    (hd : d.length = len h.cmd1) (h4 : len h.cmd1 = 4) : replyFrame h (Quad.ofList d).bytes = h.bytes ++ d ++ [c] := by
  rw [Quad.bytes_ofList (hd.trans h4), replyFrame_of_verify hv]

theorem ReplyArm.encode {P : Config} {h : Header} {d : List Byte} {c : Byte} {i : Instr} (ha : ReplyArm P h d c i)
    (hd : d.length = len h.cmd1) : encode P i = ⟨.reply, h.bytes ++ d ++ [c]⟩ := by
  have quad := @replyFrame_quad h d c
  cases ha with
  | mismatch hv => rfl
  | ltc hv hh => subst hh; exact congrArg (Image.mk .reply) (quad hv hd (len_header4 _))
  | vtc hv hh => subst hh; exact congrArg (Image.mk .reply) (quad hv hd (len_header4 _))
  | altLtc hv hh => subst hh; exact congrArg (Image.mk .reply) (quad hv hd (len_header4 _))
  | timer1 hv hh => subst hh; exact congrArg (Image.mk .reply) (quad hv hd (len_header4 _))
  | timer2 hv hh => subst hh; exact congrArg (Image.mk .reply) (quad hv hd (len_header4 _))
  | ubLocal hv ht hu => exact congrArg (Image.mk .reply) (quad hv hd (len_of_isubl hu))
  | ubVert hv ht hl hu => exact congrArg (Image.mk .reply) (quad hv hd (len_of_isubv hu))
  | status hv => exact congrArg (Image.mk .reply) (replyFrame_of_verify hv)
  | drop hv => exact congrArg (Image.mk .reply) (replyFrame_of_verify hv)

/-- A verified frame decodes to the arm that its header selects. -/
theorem decode_replyFrame {P : Config} {h : Header} {d : List Byte} {i : Instr} (hd : d.length = len h.cmd1)
    (ha : verify h d (cksum (h.bytes ++ d)) = true → ReplyArm P h d (cksum (h.bytes ++ d)) i) :
    decode P ⟨.reply, replyFrame h d⟩ = .ok i := by
  rw [replyFrame, Machine.decode_reply _ hd, (ha (verify_cksum h d)).unique]

/-! ### The decoder -/

theorem fnInstr_ok {n : FnName} {l : List Byte} {i : Instr} (h : fnInstr n l = .ok i) (P : Config) :
    i.wellFormed P = true ∧ encode P i = ⟨.fn n, l⟩ := by
  cases n with
  | cksum => cases h; exact ⟨rfl, rfl⟩
  | stamp => obtain ⟨_, _, rfl, rfl⟩ := stampOperand_ok_iff.1 h; exact ⟨rfl, rfl⟩
  | verify => obtain ⟨_, _, _, hd, rfl, rfl⟩ := verifyOperand_ok_iff.1 h; exact ⟨decide_eq_true hd, rfl⟩
  | len => obtain ⟨_, rfl, rfl⟩ := oneByte_ok_iff.1 h; exact ⟨rfl, rfl⟩
  | flen => obtain ⟨_, rfl, rfl⟩ := oneByte_ok_iff.1 h; exact ⟨rfl, rfl⟩
  | wf => cases h; exact ⟨rfl, rfl⟩
  | wfs => cases h; exact ⟨rfl, rfl⟩
  | split => cases h; exact ⟨rfl, rfl⟩
  | hexfmt => cases h; exact ⟨rfl, rfl⟩
  | tcdec => obtain ⟨_, rfl, rfl⟩ := oneByte_ok_iff.1 h; exact ⟨rfl, rfl⟩
  | tcenc =>
    obtain ⟨v, hv, rfl, rfl⟩ := tcencOperand_ok_iff.1 h
    exact ⟨(tcencDomain_iff v).2 (by omega), rfl⟩
  | tc4dec => obtain ⟨_, rfl, rfl⟩ := quadOperand_ok_iff.1 h; exact ⟨rfl, rfl⟩
  | tc4enc => obtain ⟨_, ht, rfl, rfl⟩ := tc4encOperand_ok_iff.1 h; exact ⟨ht, rfl⟩
  | istc => obtain ⟨_, rfl, rfl⟩ := headerOperand_ok_iff.1 h; exact ⟨rfl, rfl⟩
  | ubdec => obtain ⟨_, rfl, rfl⟩ := quadOperand_ok_iff.1 h; exact ⟨rfl, rfl⟩
  | ubpack => obtain ⟨_, _, rfl, rfl⟩ := ubpackOperand_ok_iff.1 h; exact ⟨rfl, rfl⟩
  | isubl => obtain ⟨_, rfl, rfl⟩ := headerOperand_ok_iff.1 h; exact ⟨rfl, rfl⟩
  | isubv => obtain ⟨_, rfl, rfl⟩ := headerOperand_ok_iff.1 h; exact ⟨rfl, rfl⟩
  | isstatus => obtain ⟨_, rfl, rfl⟩ := headerOperand_ok_iff.1 h; exact ⟨rfl, rfl⟩
  | stdec g => obtain ⟨_, _, hd, rfl, rfl⟩ := stdecOperand_ok_iff.1 h; exact ⟨beq_iff_eq.2 hd, rfl⟩

/-- Whatever the decoder accepts is well formed, and is encoded to the image it came from. -/
theorem decode_ok {P : Config} {im : Image} {i : Instr} (h : decode P im = .ok i) :
    i.wellFormed P = true ∧ encode P i = im := by
  obtain ⟨sel, l⟩ := im
  cases sel with
  | request g =>
    obtain ⟨f, hw, rfl, rfl⟩ := requestInstr_ok_iff.1 h
    exact ⟨hw, rfl⟩
  | phase =>
    match l, h with
    | [b], h => exact encode_phaseInstr h P
  | reply =>
    cases hs : split l with
    | none => simp [decode, hs] at h
    | some p =>
      obtain ⟨hdr, d, c⟩ := p
      obtain ⟨rfl, hd⟩ := split_some hs
      cases (Machine.decode_reply c hd).symm.trans h
      have ha := replyArm_replyInstr P hdr d c
      exact ⟨ha.wellFormed hd, ha.encode hd⟩
  | fn n => exact fnInstr_ok h P
  | trap cause =>
    match l, h with
    | [b], h =>
      obtain ⟨k, hf, rfl, rfl⟩ := trapInstr_ok_iff.1 h
      exact ⟨hf, rfl⟩
  | host c =>
    match l, h with
    | [], h => cases h; exact encode_hostInstr P c

end Sys2Proof

open Sys2Proof

/-- Settles O43: what the decoder accepts is encoded to the image it came from. -/
theorem encodeOfDecodeIsTheImage : Obligations.EncodeOfDecodeIsTheImage := fun _ _ _ h => (decode_ok h).2

/-- Settles O44: what the decoder accepts is well formed. -/
theorem decodedOperationsAreWellFormed : Obligations.DecodedOperationsAreWellFormed := fun _ _ _ h => (decode_ok h).1

/-- Settles O42, by the cases of the operation: a well-formed operand is one its assembly accepts, and a
well-formed reply arm is the one its reply selects. -/
theorem decodeOfEncodeIsTheOperation : Obligations.DecodeOfEncodeIsTheOperation := by
  intro P i hw
  cases i with
  | frame f g => exact requestInstr_ok_iff.2 ⟨f, hw, rfl, rfl⟩
  | accept => rfl
  | send => rfl
  | waitA => rfl
  | rdhdr => rfl
  | rddata => rfl
  | waitB => rfl
  | rdcks => rfl
  | parse => rfl
  | pVerify h d c =>
    simp only [Instr.wellFormed, Bool.and_eq_true, beq_iff_eq, Bool.not_eq_true'] at hw
    rw [encode, Machine.decode_reply c hw.1, (ReplyArm.mismatch hw.2).unique]
  | pTcLtc d => exact decode_replyFrame (by simp) fun hv => .ltc hv rfl
  | pTcVtc d => exact decode_replyFrame (by simp) fun hv => .vtc hv rfl (by simpa [Instr.wellFormed] using hw)
  | pTcAltLtc d =>
    simp only [Instr.wellFormed, Bool.and_eq_true, bne_iff_ne] at hw
    exact decode_replyFrame (by simp) fun hv => .altLtc hv rfl hw.1 hw.2
  | pTcTimer1 d =>
    simp only [Instr.wellFormed, Bool.and_eq_true, bne_iff_ne] at hw
    exact decode_replyFrame (by simp) fun hv => .timer1 hv rfl hw.1.1 hw.1.2 hw.2
  | pTcTimer2 d =>
    simp only [Instr.wellFormed, Bool.and_eq_true, bne_iff_ne] at hw
    exact decode_replyFrame (by simp) fun hv => .timer2 hv rfl hw.1.1.1 hw.1.1.2 hw.1.2 hw.2
  | pUbLocal h d =>
    obtain ⟨hu, hc⟩ := Bool.and_eq_true .. ▸ hw
    obtain ⟨ht, -⟩ := (noClassBefore_iff P h 1).1 hc
    exact decode_replyFrame (Codec.len_of_isubl hu).symm fun hv => .ubLocal hv (ht (by omega)) hu
  | pUbVert h d =>
    obtain ⟨hu, hc⟩ := Bool.and_eq_true .. ▸ hw
    obtain ⟨ht, hl, -⟩ := (noClassBefore_iff P h 2).1 hc
    exact decode_replyFrame (Codec.len_of_isubv hu).symm fun hv => .ubVert hv (ht (by omega)) (hl (by omega)) hu
  | pStatus h d =>
    simp only [Instr.wellFormed, Bool.and_eq_true, beq_iff_eq] at hw
    obtain ⟨⟨hd, hs⟩, hc⟩ := hw
    obtain ⟨ht, hl, hu, -⟩ := (noClassBefore_iff P h 3).1 hc
    exact decode_replyFrame hd fun hv => .status hv (ht (by omega)) (hl (by omega)) (hu (by omega)) hs
  | pDrop h d =>
    simp only [Instr.wellFormed, Bool.and_eq_true, beq_iff_eq] at hw
    obtain ⟨hd, hc⟩ := hw
    obtain ⟨ht, hl, hu, hs⟩ := (noClassBefore_iff P h 4).1 hc
    exact decode_replyFrame hd fun hv => .drop hv (ht (by omega)) (hl (by omega)) (hu (by omega)) (hs (by omega))
  | cksum s => rfl
  | stamp body slot => exact stampOperand_ok_iff.2 ⟨body, slot, rfl, rfl⟩
  | verify h d c => exact verifyOperand_ok_iff.2 ⟨h, d, c, of_decide_eq_true hw, rfl, rfl⟩
  | len b => rfl
  | flen b => rfl
  | wf f => rfl
  | wfs f => rfl
  | split f => rfl
  | hexfmt s => rfl
  | tcdec b => rfl
  | tcenc v =>
    obtain ⟨h0, h159⟩ := (Codec.tcencDomain_iff v).1 hw
    exact tcencOperand_ok_iff.2 ⟨v.toNat, by omega, rfl, by rw [Int.toNat_of_nonneg h0]⟩
  | tc4dec d => rfl
  | tc4enc t => exact tc4encOperand_ok_iff.2 ⟨t, hw, rfl, rfl⟩
  | istc h => rfl
  | ubdec d => rfl
  | ubpack u =>
    obtain ⟨_ | q, _ | v⟩ := u
    · cases hw
    · cases hw
    · cases hw
    · rfl
  | isubl h => rfl
  | isubv h => rfl
  | isstatus h => rfl
  | stdec h d g => exact stdecOperand_ok_iff.2 ⟨h, d, beq_iff_eq.1 hw, rfl, rfl⟩
  | raise k c => exact trapInstr_ok_iff.2 ⟨k, hw, rfl, rfl⟩
  | requestUserbits => rfl
  | requestTimestamp => rfl
  | requestElapsedTime => rfl
  | otherVideoCommand c =>
    exact congrArg Except.ok (hostInstr_of_not_isPseudo (by simpa [Instr.wellFormed] using hw))

/-- Settles O33, by the cases of the arm the reply selects: a timecode or userbits header announces four bytes, so
that the payload is the whole of the data. -/
theorem repliesAreClassifiedInOrder : Obligations.RepliesAreClassifiedInOrder := by
  intro P h d c hd
  have hd : d.length = Codec.len h.cmd1 := hd
  have quad (h4 : Codec.len h.cmd1 = 4) : [(Quad.ofList d).b0, _, _, _] = d := Quad.bytes_ofList (hd.trans h4)
  have ha := replyArm_replyInstr P h d c
  refine ⟨_, Machine.decode_reply c hd, ?_, fun hv => ?_⟩
  · rw [ha.eq_pVerify_iff, Ne, ← Machine.verify_iff_byteSum, Bool.not_eq_true]
  rw [← Machine.verify_iff_byteSum] at hv
  refine ⟨fun ht => ?_, fun ht hl => ?_, fun ht hl hu => ?_, ha.eq_of_no_payload hv⟩
  · exact ⟨_, (quad (Codec.len_of_istc ht)).symm, ha.mem_of_istc hv ht⟩
  · exact ⟨_, (quad (Codec.len_of_isubl hl)).symm, ha.eq_of_isubl hv ht hl⟩
  · exact ⟨_, (quad (Codec.len_of_isubv hu)).symm, ha.eq_of_isubv hv ht hl hu⟩

/-- Settles O41: the phase codes, the labels and the refused words evaluate; each reply selects its arm. -/
theorem wordsDecodeAsTheSpecWritesThem : Obligations.WordsDecodeAsTheSpecWritesThem := by
  intro P
  have reply (h : Header) (d : List Byte) (c : Byte) (i : Instr) (hd : d.length = Codec.len h.cmd1)
      (ha : ReplyArm P h d c i) : decode P ⟨.reply, h.bytes ++ d ++ [c]⟩ = .ok i :=
    (Machine.decode_reply c hd).trans (congrArg _ ha.unique)
  refine ⟨⟨rfl, rfl, rfl, rfl, rfl, rfl, rfl, rfl, rfl⟩, fun hl => ?_, ?_, fun ht hl hu hs => ?_, rfl, fun g => ?_, rfl, rfl⟩
  · exact reply ⟨0x74, 0x04⟩ [0x12, 0x34, 0x56, 0x01] 0x15 _ rfl (.ltc (by decide) (hl ▸ rfl))
  · exact reply ⟨0x74, 0x04⟩ [0x12, 0x34, 0x56, 0x01] 0x16 _ rfl (.mismatch (by decide))
  · exact reply ⟨0x10, 0x01⟩ [] 0x11 _ rfl (.drop (by decide) ht hl hu hs)
  · exact (Machine.decode_request P ⟨[0x21, 0x00, 0x21], by decide, by decide⟩ g).trans (if_neg (by decide))

end

section
/-! The invariant (O48, O49): one lemma for each kind of step `step_leaves` lists, and for the framer one lemma
for the publication of an event, which is how the cells change. -/

namespace Sys2Proof.Machine

variable {s t : State}

/-- A subscription stays at an item its stream has reached when every stream only grows. -/
theorem le_length_streamItems {u : Subscription} {es : List Event} {cs : List VideoCommand} {vi : List VideoIndex}
    (hu : u.start ≤ (streamItems s u.stream).length) (he : t.evlog = s.evlog ++ es)
    (hc : t.commandsIn = s.commandsIn ++ cs) (hv : t.viStream = s.viStream ++ vi) :
    u.start ≤ (streamItems t u.stream).length := by
  obtain ⟨l, hl⟩ := streamItems_append he hc hv u.stream
  rw [hl, List.length_append]
  omega

namespace State.Inv

/-- While a cycle runs no request stands at REQ. -/
theorem req_eq_none (hi : s.Inv) (hp : s.phase ≠ .idle) : s.req = none :=
  Decidable.byContradiction fun h => hp (hi.req_idle h)

/-- One event more in EVLOG, with the cells its kind overwrites: each stays the last value of its stream. -/
theorem publish (hi : s.Inv) (e : Event) : State.Inv { s with
    evlog := s.evlog ++ [e]
    curTc := tcAfter s.curTc e
    curUbLocal := groupAfter .localCh s.curUbLocal e
    curUbVert := groupAfter .verticalCh s.curUbVert e
    curState := stateAfter s.curState e } :=
  { hi with
    tc_eq := by rw [timecodeStream_last, ← hi.tc_eq]
    ub_local_eq := by rw [userbitsGroups_last, ← hi.ub_local_eq]
    ub_vert_eq := by rw [userbitsGroups_last, ← hi.ub_vert_eq]
    state_eq := by rw [stateStream_last, ← hi.state_eq]
    hub_le := by rw [List.length_append]; exact Nat.le_add_right_of_le hi.hub_le
    hub_tc := by rw [List.take_append_of_le_length hi.hub_le]; exact hi.hub_tc
    hub_state := by rw [List.take_append_of_le_length hi.hub_le]; exact hi.hub_state
    subscribed := fun u hu => le_length_streamItems (hi.subscribed u hu) rfl (List.append_nil _).symm
      (List.append_nil _).symm }

/-- The end of a cycle: IDLE frees the frame in TXBUF and lets a request stand at REQ. -/
theorem idle (hi : s.Inv) : State.Inv { s with phase := .idle } :=
  { hi with stamped := fun h => absurd rfl h, data_pos := nofun, req_idle := fun _ => rfl }

/-- From one phase of a running cycle to another. -/
theorem advance (hi : s.Inv) (hp : s.phase ≠ .idle) (p : Phase) (hd : p = .data → 0 < s.rxn.toNat) :
    State.Inv { s with phase := p } :=
  { hi with
    stamped := fun _ => hi.stamped hp
    data_pos := hd
    req_idle := fun h => absurd (hi.req_eq_none hp) h }

theorem accept (hi : s.Inv) (r : Request) : State.Inv { s with
    txbuf := stampInto s.txbuf r.frame
    txlen := BitVec.ofNat 5 r.frame.bytes.length
    tag := r.tag
    req := none
    phase := .send } :=
  { hi with
    txlen_le := (toNat_txlen_of_frame r.frame).symm ▸ r.frame.le
    stamped := fun _ => by
      dsimp only
      rw [toNat_txlen_of_frame, take_bytes_stampInto]
      exact ⟨r.frame.pos, Codec.stamp_stamp _⟩
    data_pos := nofun
    req_idle := fun h => absurd rfl h
    req_wf := nofun }

/-- RDHDR's registers: RXN is the length nibble of the byte that becomes RXHDR[0] (R25). -/
theorem header (hi : s.Inv) (a b : Byte) (hp : s.phase ≠ .data) : State.Inv { s with
    rxhdr := ⟨a, b⟩, rxn := BitVec.ofNat 4 (Codec.len a) } :=
  { hi with
    rxn_eq := by rw [BitVec.toNat_ofNat]; exact Nat.mod_eq_of_lt (Codec.len_lt a)
    data_pos := fun h => absurd h hp }

theorem parse (hi : s.Inv) (h : Header) (d : List Byte) (c : Byte) (g : VideoCommand) : (parseReply s h d c g).Inv := by
  obtain he | ⟨e, he⟩ | ⟨T, he⟩ | ⟨u, he⟩ | ⟨u, he⟩ | ⟨v, he⟩ := parseReply_cases s h d c g <;> rw [he]
  · exact hi
  · exact hi.publish (.err e)
  · exact hi.publish (.tc T)
  · exact hi.publish (.ub .localCh u ⟨some u, s.curUbVert⟩)
  · exact hi.publish (.ub .verticalCh u ⟨s.curUbLocal, some u⟩)
  · exact hi.publish (.state v)

/-- Every way a framer step can go keeps the invariant. -/
theorem framed (hi : s.Inv) (h : Framed s t) : t.Inv := by
  cases h with
  | stay hn h => exact h ▸ hi
  | accept r hp hr h => subst h; exact hi.accept r
  | send hp r hs l h => subst h; exact { hi.advance (by simp [hp]) .waitA nofun with }
  | wait p hp w h =>
    subst h
    exact { hi.advance (by obtain h | h := hp <;> simp [h.1]) p (by obtain h | h := hp <;> simp [h.2]) with
      tmr_expired := rfl }
  | hdr hp r hs a b rest hf h =>
    subst h
    have hh := hi.header a b (by simp [hp])
    have hr : (BitVec.ofNat 4 (Codec.len a)).toNat = Codec.len a := hh.rxn_eq
    exact { hh.advance (by simp [hp]) (if 0 < Codec.len a then .data else .waitB) (by simp [hr, Nat.pos_iff_ne_zero]) with }
  | silent hp r hs h => subst h; exact { hi.idle with }
  | data hp r hs hl h => subst h; exact { hi.advance (by simp [hp]) .waitB nofun with }
  | cks hp r hs c rest hf h => subst h; exact { hi.advance (by simp [hp]) .decode nofun with }
  | fail hp r hs n pre l co i e tm hrx htx htx' hi' htm h =>
    subst h
    exact { (hi.publish (.err e)).idle with tmr_expired := htm.elim (·.trans hi.tmr_expired) id }
  | parse hp ln h => subst h; exact (State.Inv.parse (s := s.debugLog ln) { hi with } ..).idle

/-- The Event Hub's step keeps it: the part it has consumed is one event longer. -/
theorem hub (hi : s.Inv) {e : Event} (he : s.evlog[s.hubPos]? = some e) (vi : List VideoIndex) : State.Inv { s with
    hubPos := s.hubPos + 1
    latestTc := tcAfter s.latestTc e
    latestState := stateAfter s.latestState e
    viStream := s.viStream ++ vi } :=
  { hi with
    hub_le := (List.getElem?_eq_some_iff.1 he).1
    hub_tc := by rw [take_succ_of_getElem? he, timecodeStream_last, ← hi.hub_tc]
    hub_state := by rw [take_succ_of_getElem? he, stateStream_last, ← hi.hub_state]
    subscribed := fun u hu => le_length_streamItems (hi.subscribed u hu) (List.append_nil _).symm
      (List.append_nil _).symm rfl }

/-- What is presented or queued keeps the host's duties 1 and 3 (R170). -/
theorem ported (hi : s.Inv) {rq : Option Request} {q : List HostItem} (hp : Ported s rq q) :
    State.Inv { s with req := rq, hostq := q } :=
  { hi with
    req_idle := by
      obtain h | ⟨hid, -, -⟩ := hp.req
      · exact h ▸ hi.req_idle
      · exact fun _ => hid
    req_wf := by
      obtain h | ⟨-, -, r, hr, hw⟩ := hp.req
      · exact h ▸ hi.req_wf
      · rintro r' rfl
        cases hr
        exact hw.elim id (hi.queue_wf r)
    queue_wf := fun r hr => (hp.queue r hr).elim id (hi.queue_wf r) }

/-- New commands, video indexes and subscriptions at the ends of their lists. -/
theorem grow (hi : s.Inv) {cs : List VideoCommand} {vi : List VideoIndex} {subs : List Subscription}
    (hsub : ∀ u ∈ subs, u.start = (streamItems s u.stream).length) : State.Inv { s with
      commandsIn := s.commandsIn ++ cs, viStream := s.viStream ++ vi, subscriptions := s.subscriptions ++ subs } :=
  { hi with
    subscribed := fun u hu => le_length_streamItems
      ((List.mem_append.1 hu).elim (hi.subscribed u) fun h => Nat.le_of_eq (hsub u h)) (List.append_nil _).symm rfl rfl }

theorem step (hi : s.Inv) (h : Machine.step s = .next t) : t.Inv := by
  cases step_leaves h with
  | framer sch hm ha h => exact State.Inv.framed (s := { s with schedule := sch }) { hi with } h
  | hub sch e n vi lv ha he hl h =>
    subst h
    exact { hi.hub he vi with }
  | environment sch i ch q cs res rq dr vi lv subs hin hp hsub hl h =>
    subst h
    exact { (hi.ported hp).grow hsub with }

end State.Inv

end Sys2Proof.Machine

open Sys2Proof.Machine

/-- Settles O49: each kind of step `step_leaves` lists keeps every clause. -/
theorem everyStepKeepsTheStateInvariant : Obligations.EveryStepKeepsTheStateInvariant := fun _ _ hi h => hi.step h

end

section
/-! What every step keeps (O51 to O58): for the framer's step one lemma for each group of registers, taken from
the cases of `Framed`; the other agents' steps are read off `step_leaves`. -/

namespace Sys2Proof.Machine

variable {s t : State}

/-- The parser writes the cells and appends at most one event (R161). -/
theorem parseReply_eq (s : State) (h : Header) (d : List Byte) (c : Byte) (g : VideoCommand) :
    ∃ tc ul uv st es, List.length es ≤ 1 ∧ parseReply s h d c g = { s with
      curTc := tc, curUbLocal := ul, curUbVert := uv, curState := st, evlog := s.evlog ++ es } := by
  obtain he | ⟨e, he⟩ | ⟨T, he⟩ | ⟨u, he⟩ | ⟨u, he⟩ | ⟨v, he⟩ := parseReply_cases s h d c g
  · exact ⟨_, _, _, _, [], Nat.zero_le 1, by rw [he, List.append_nil]⟩
  all_goals exact ⟨_, _, _, _, [_], Nat.le_refl 1, he⟩

/-- What PARSE leaves. -/
theorem parsed_eq {ln : LogLine} {h : Header} {d : List Byte} {c : Byte} {g : VideoCommand}
    (ht : t = (parseReply (s.debugLog ln) h d c g).setPhase .idle) : ∃ tc ul uv st es l, List.length es ≤ 1 ∧ t = { s with
      curTc := tc, curUbLocal := ul, curUbVert := uv, curState := st, evlog := s.evlog ++ es, log := l, phase := .idle } := by
  obtain ⟨_, _, _, _, es, hl, he⟩ := parseReply_eq (s.debugLog ln) h d c g
  exact ⟨_, _, _, _, es, _, hl, by rw [ht, he]; rfl⟩

/-! ### The framer's step -/

namespace Framed

/-- The framer touches no configuration and nothing of the host's (R8). -/
theorem host_unchanged (h : Framed s t) : t.cfg = s.cfg ∧ t.commandsIn = s.commandsIn ∧ t.viStream = s.viStream ∧
    t.subscriptions = s.subscriptions := by
  cases h with
  | parse hp ln h =>
    obtain ⟨_, _, _, _, _, _, -, rfl⟩ := parsed_eq h
    exact ⟨rfl, rfl, rfl, rfl⟩
  | _ => subst_vars; exact ⟨rfl, rfl, rfl, rfl⟩

/-- A framer step emits at most one event (R40). -/
theorem evlog (h : Framed s t) : ∃ l, t.evlog = s.evlog ++ l ∧ l.length ≤ 1 := by
  cases h with
  | fail => subst_vars; exact ⟨[_], rfl, Nat.le_refl 1⟩
  | parse hp ln h =>
    obtain ⟨_, _, _, _, es, _, hl, rfl⟩ := parsed_eq h
    exact ⟨es, rfl, hl⟩
  | _ => subst_vars; exact ⟨[], (List.append_nil _).symm, Nat.zero_le 1⟩

/-- Only PARSE writes the cells (R35). -/
theorem cells_unchanged (h : Framed s t) (hp : s.phase ≠ .decode) :
    t.curTc = s.curTc ∧ t.curUbLocal = s.curUbLocal ∧ t.curUbVert = s.curUbVert ∧ t.curState = s.curState := by
  cases h with
  | parse hd => exact absurd hd hp
  | _ => subst_vars; exact ⟨rfl, rfl, rfl, rfl⟩

/-- Only SEND transmits, and what it transmits begins the frame in TXBUF (R53). -/
theorem txstream (h : Framed s t) : ∃ l, t.txstream = s.txstream ++ l ∧ (s.phase ≠ .send → l = []) ∧
    l <+: s.txbuf.bytes.take s.txlen.toNat := by
  cases h with
  | send hp => subst_vars; exact ⟨_, rfl, fun h => absurd hp h, List.prefix_refl _⟩
  | fail hp r hs n pre l co i e tm hrx htx htx' => subst_vars; exact ⟨pre, rfl, htx', htx⟩
  | parse hp ln h =>
    obtain ⟨_, _, _, _, _, _, -, rfl⟩ := parsed_eq h
    exact ⟨[], (List.append_nil _).symm, fun _ => rfl, List.nil_prefix⟩
  | _ => subst_vars; exact ⟨[], (List.append_nil _).symm, fun _ => rfl, List.nil_prefix⟩

/-- A framer step takes from RXFIFO's front what its ChanRead takes (R55, R56). -/
theorem rxfifo (h : Framed s t) : ∃ n, t.rxfifo = s.rxfifo.drop n ∧ n ≤ bytesAsked s ∧
    (s.rxfifo.length < bytesAsked s → n = 0) := by
  cases h with
  | hdr hp r hs a b rest hf h =>
    subst h
    exact ⟨2, by rw [hf]; rfl, by simp [bytesAsked, hp], by simp [bytesAsked, hp, hf]⟩
  | data hp r hs hl h =>
    subst h
    exact ⟨s.rxn.toNat, rfl, by simp [bytesAsked, hp], by simp only [bytesAsked, hp]; omega⟩
  | cks hp r hs c rest hf h =>
    subst h
    exact ⟨1, by rw [hf]; rfl, by simp [bytesAsked, hp], by simp [bytesAsked, hp, hf]⟩
  | fail hp r hs n pre l co i e tm hrx => subst_vars; exact ⟨n, rfl, hrx⟩
  | parse hp ln h =>
    obtain ⟨_, _, _, _, _, _, -, rfl⟩ := parsed_eq h
    exact ⟨0, rfl, Nat.zero_le _, fun _ => rfl⟩
  | _ => subst_vars; exact ⟨0, rfl, Nat.zero_le _, fun _ => rfl⟩

/-- Each frame register is written in its own phase (R30). -/
theorem registers (h : Framed s t) :
    (s.phase ≠ .idle → t.txbuf = s.txbuf ∧ t.txlen = s.txlen ∧ t.tag = s.tag) ∧
    (s.phase ≠ .hdr → t.rxhdr = s.rxhdr ∧ t.rxn = s.rxn) ∧
    (s.phase ≠ .data → t.rxdata = s.rxdata) ∧ (s.phase ≠ .cks → t.rxcks = s.rxcks) := by
  cases h with
  | accept r hp => subst_vars; exact ⟨fun h => absurd hp h, fun _ => ⟨rfl, rfl⟩, fun _ => rfl, fun _ => rfl⟩
  | hdr hp => subst_vars; exact ⟨fun _ => ⟨rfl, rfl, rfl⟩, fun h => absurd hp h, fun _ => rfl, fun _ => rfl⟩
  | data hp => subst_vars; exact ⟨fun _ => ⟨rfl, rfl, rfl⟩, fun _ => ⟨rfl, rfl⟩, fun h => absurd hp h, fun _ => rfl⟩
  | cks hp => subst_vars; exact ⟨fun _ => ⟨rfl, rfl, rfl⟩, fun _ => ⟨rfl, rfl⟩, fun _ => rfl, fun h => absurd hp h⟩
  | parse hp ln h =>
    obtain ⟨_, _, _, _, _, _, -, rfl⟩ := parsed_eq h
    exact ⟨fun _ => ⟨rfl, rfl, rfl⟩, fun _ => ⟨rfl, rfl⟩, fun _ => rfl, fun _ => rfl⟩
  | _ => subst_vars; exact ⟨fun _ => ⟨rfl, rfl, rfl⟩, fun _ => ⟨rfl, rfl⟩, fun _ => rfl, fun _ => rfl⟩

/-- A framer step takes PHASE along the table of R140, or the block stays where it was. -/
theorem phase (h : Framed s t) : t.phase = s.phase ∨ transition s.phase t.phase = true := by
  cases h with
  | stay hn h => exact .inl (h ▸ rfl)
  | accept r hp hr h => subst h; right; rw [hp]; rfl
  | send hp r hs l h => subst h; right; rw [hp]; rfl
  | wait p hp w h => subst h; right; obtain ⟨hp, rfl⟩ | ⟨hp, rfl⟩ := hp <;> rw [hp] <;> rfl
  | hdr hp r hs a b rest hf h => subst h; right; rw [hp]; dsimp only; split <;> rfl
  | silent hp r hs h => subst h; right; rw [hp]; rfl
  | data hp r hs hl h => subst h; right; rw [hp]; rfl
  | cks hp r hs c rest hf h => subst h; right; rw [hp]; rfl
  | fail hp => subst_vars; right; cases hs : s.phase <;> simp_all [transition]
  | parse hp ln h => subst h; right; rw [hp]; rfl

/-- A framer step that clears INTR has observed it (R191). -/
theorem interrupted (h : Framed s t) (hi : s.intr = true) (ht : t.intr = false) :
    s.phase ≠ .idle ∧ s.phase ≠ .decode ∧ t.phase = .idle ∧ t.cancelOut = s.cancelOut + 1 ∧
    ∃ cause, t.evlog = s.evlog ++ [.err ⟨.interrupted, cause, none, none, none⟩] := by
  cases h with
  | fail hp r hs n pre l co i e tm hrx htx htx' hint htm h =>
    subst h
    obtain rfl | ⟨-, hco, cause, rfl⟩ := hint
    · cases hi.symm.trans ht
    · exact ⟨hp.1, hp.2, rfl, hco, cause, rfl⟩
  | parse hp ln h => obtain ⟨_, _, _, _, _, _, -, rfl⟩ := parsed_eq h; cases hi.symm.trans ht
  | _ => subst_vars; cases hi.symm.trans ht

/-- The framer takes a request in ACCEPT only (R131). -/
theorem req (h : Framed s t) {r : Request} (hr : s.req = some r) :
    t.req = some r ∨ (s.phase = .idle ∧ t.phase = .send ∧ t.tag = r.tag ∧ t.req = none) := by
  cases h with
  | accept r' hp hr' h => subst h; cases hr.symm.trans hr'; exact .inr ⟨hp, rfl, rfl, rfl⟩
  | parse hp ln h => obtain ⟨_, _, _, _, _, _, -, rfl⟩ := parsed_eq h; exact .inl hr
  | _ => subst_vars; exact .inl hr

end Framed

/-- Every step leaves each published list with at most one item more, at its end (R40, R171, R172). -/
theorem step_appends (h : step s = .next t) : ∃ es cs vi subs,
    t.evlog = s.evlog ++ es ∧ t.commandsIn = s.commandsIn ++ cs ∧ t.viStream = s.viStream ++ vi ∧
    t.subscriptions = s.subscriptions ++ subs ∧
    List.length es ≤ 1 ∧ List.length cs ≤ 1 ∧ List.length vi ≤ 1 ∧ List.length subs ≤ 1 := by
  cases step_leaves h with
  | framer sch hm ha h =>
    obtain ⟨es, he, hel⟩ := h.evlog
    obtain ⟨-, hc, hv, hs⟩ := h.host_unchanged
    exact ⟨es, [], [], [], he, by simpa using hc, by simpa using hv, by simpa using hs, hel, by simp⟩
  | hub sch e n vi lv ha he hl h =>
    subst h
    exact ⟨[], [], vi, [], by simp, by simp, rfl, by simp, by simp, by simp, hl, by simp⟩
  | environment sch i ch q cs res rq dr vi lv subs hint hp hsub hl h =>
    subst h
    obtain ⟨hcl, hvl, hsl⟩ := hl
    exact ⟨[], cs, vi, subs, by simp, rfl, rfl, rfl, by simp, hcl, hvl, hsl⟩

end Sys2Proof.Machine

open Sys2Proof Sys2Proof.Machine

/-- Settles O51: the framer appends an event at most, the other agents at most one item of their own streams; a
view grows with its stream. -/
theorem eventsAreOnlyAppended : Obligations.EventsAreOnlyAppended := by
  intro s t h
  obtain ⟨es, cs, vi, subs, he, hc, hv, hs, hel, hcl, hvl, hsl⟩ := step_appends h
  refine ⟨⟨es, he, hel⟩, ⟨cs, hc, hcl⟩, ⟨vi, hv, hvl⟩, ⟨subs, hs, hsl⟩, fun u _ => ?_⟩
  obtain ⟨l, hl⟩ := streamItems_append he hc hv u.stream
  exact subscriberView_append hl

/-- Settles O52: the framer writes the cells in PARSE only, the other agents write neither them nor the
configuration. -/
theorem cellsAndConfigurationKeepTheirOwners : Obligations.CellsAndConfigurationKeepTheirOwners := by
  intro s t h
  cases step_leaves h with
  | framer sch hm ha h => exact ⟨h.host_unchanged.1, fun hp => h.cells_unchanged (hp.resolve_right hm)⟩
  | hub => subst_vars; exact ⟨rfl, fun _ => ⟨rfl, rfl, rfl, rfl⟩⟩
  | environment => subst_vars; exact ⟨rfl, fun _ => ⟨rfl, rfl, rfl, rfl⟩⟩

/-- Settles O53: only the framer's SEND transmits. -/
theorem transmitStreamGrowsOnlyInSend : Obligations.TransmitStreamGrowsOnlyInSend := by
  intro s t h
  cases step_leaves h with
  | framer sch hm ha h => exact h.txstream
  | hub => subst_vars; exact ⟨[], (List.append_nil _).symm, fun _ => rfl, List.nil_prefix⟩
  | environment => subst_vars; exact ⟨[], (List.append_nil _).symm, fun _ => rfl, List.nil_prefix⟩

/-- Settles O54: the framer takes what its ChanRead takes while nothing arrives; DEVICE's bytes join the end. -/
theorem receiveStreamIsNeverFlushed : Obligations.ReceiveStreamIsNeverFlushed := by
  intro s t h
  cases step_leaves h with
  | framer sch hm ha h =>
    obtain ⟨n, hn, hle, hz⟩ := h.rxfifo
    exact ⟨n, by rw [hn, ha, List.append_nil], hle, hz, fun hw => absurd hw hm⟩
  | hub sch e n vi lv ha =>
    subst_vars
    exact ⟨0, by rw [ha, List.append_nil]; rfl, Nat.zero_le _, fun _ => rfl, fun _ => rfl⟩
  | environment => subst_vars; exact ⟨0, rfl, Nat.zero_le _, fun _ => rfl, fun _ => rfl⟩

/-- Settles O55: no agent but the framer writes a frame register. -/
theorem frameRegistersFollowTheAccessMatrix : Obligations.FrameRegistersFollowTheAccessMatrix := by
  intro s t h
  cases step_leaves h with
  | framer sch hm ha h => exact h.registers
  | hub => subst_vars; exact ⟨fun _ => ⟨rfl, rfl, rfl⟩, fun _ => ⟨rfl, rfl⟩, fun _ => rfl, fun _ => rfl⟩
  | environment => subst_vars; exact ⟨fun _ => ⟨rfl, rfl, rfl⟩, fun _ => ⟨rfl, rfl⟩, fun _ => rfl, fun _ => rfl⟩

/-- Settles O56: no agent but the framer moves PHASE. -/
theorem phaseFollowsTheTransferTable : Obligations.PhaseFollowsTheTransferTable := by
  intro s t h
  cases step_leaves h with
  | framer sch hm ha h => exact h.phase
  | hub => subst_vars; exact .inl rfl
  | environment => subst_vars; exact .inl rfl

/-- Settles O57: no agent but the framer clears INTR. -/
theorem pendingInterruptionClearsOnlyWhenObserved : Obligations.PendingInterruptionClearsOnlyWhenObserved := by
  intro s t h hi ht
  cases step_leaves h with
  | framer sch hm ha h => exact h.interrupted hi ht
  | hub => subst_vars; cases hi.symm.trans ht
  | environment sch i ch q cs res rq dr vi lv subs hint hp hsub hl h => subst h; cases (hint hi).symm.trans ht

/-- Settles O58: another agent fills an empty REQ only. -/
theorem onlyAcceptTakesAPresentedRequest : Obligations.OnlyAcceptTakesAPresentedRequest := by
  intro s t h r hr
  cases step_leaves h with
  | framer sch hm ha h => exact h.req hr
  | hub => subst_vars; exact .inl hr
  | environment sch i ch q cs res rq dr vi lv subs hint hp hsub hl h =>
    subst h
    obtain rfl | ⟨-, hn, -⟩ := hp.req
    · exact .inl hr
    · cases hn.symm.trans hr

end

section
/-! Which agent moves (O45 to O48, O50): `step` by the head of the schedule, what the dispatcher fetches, and that
under the invariant every agent but a codec call goes on. -/

namespace Sys2Proof.Machine

variable {s : State}

/-! ### The head of the schedule -/

theorem step_of_cons {m : Move} {r : List Move} (h : s.schedule = m :: r) :
    step s = runFetched (fetchMove { s with schedule := r } m) := by
  rw [step_eq, fetch, h]

theorem step_of_nil (h : s.schedule = []) : step s = runFetched (defaultFetch s) := by
  rw [step_eq, fetch, h]

theorem runFetched_of_decode {im : Image} {i : Instr} (h : decode s.cfg im = .ok i) :
    runFetched (.run im s) = exec i s := by
  simp only [runFetched, h]

theorem defaultFetch_framer (h : s.phase ≠ .idle ∨ s.req ≠ none ∨ (s.hostq = [] ∧ s.evlog.length ≤ s.hubPos)) :
    defaultFetch s = .run (phaseImage s.phase) s := by
  unfold defaultFetch
  split
  · rfl
  · rename_i hr
    obtain ⟨hp, hn⟩ := (ready_iff s).1 (by simpa using hr)
    obtain ⟨hq, hl⟩ := (h.resolve_left (not_not_intro hp)).resolve_left (not_not_intro hn)
    rw [if_neg (by omega), hq, if_neg (by simp)]

theorem defaultFetch_hub (hp : s.phase = .idle) (hn : s.req = none) (h : s.hubPos < s.evlog.length) :
    defaultFetch s = .moved (hubStep s) := by
  rw [defaultFetch, (ready_iff s).2 ⟨hp, hn⟩, Bool.not_true, if_neg (by simp), if_pos h]

theorem defaultFetch_dispatcher (hp : s.phase = .idle) (hn : s.req = none) (h : s.evlog.length ≤ s.hubPos)
    (hq : s.hostq ≠ []) : defaultFetch s = dispatcherFetch s := by
  rw [defaultFetch, (ready_iff s).2 ⟨hp, hn⟩, Bool.not_true, if_neg (by simp), if_neg (by omega), if_pos (by simpa using hq)]

/-! ### The dispatcher -/

theorem dispatcherFetch_command {c : VideoCommand} {q : List HostItem} (hp : s.phase = .idle) (hn : s.req = none)
    (hq : s.hostq = .command c :: q) : dispatcherFetch s = .run ⟨.host c, []⟩ { s with hostq := q } := by
  rw [dispatcherFetch, if_pos ((ready_iff s).2 ⟨hp, hn⟩), hq]

theorem dispatcherFetch_request {rq : Request} {q : List HostItem} (hp : s.phase = .idle) (hn : s.req = none)
    (hq : s.hostq = .request rq :: q) : dispatcherFetch s = .moved { s with req := some rq, hostq := q } := by
  rw [dispatcherFetch, if_pos ((ready_iff s).2 ⟨hp, hn⟩), hq]

theorem dispatcherFetch_nothing (h : s.phase ≠ .idle ∨ s.req ≠ none ∨ s.hostq = []) : dispatcherFetch s = .moved s := by
  unfold dispatcherFetch
  split
  · rename_i hr
    obtain ⟨hp, hn⟩ := (ready_iff s).1 hr
    rw [(h.resolve_left (not_not_intro hp)).resolve_left (not_not_intro hn)]
  · rfl

/-! ### Going on -/

theorem wf_of_encodeCmd {P : Config} {c : VideoCommand} {f : Frame} (hw : P.wellFormed = true)
    (hf : Codec.encodeCmd P c = some f) : Codec.wf f.bytes = true := by
  obtain ⟨l, r, hl, -⟩ := List.lookup_eq_some_iff.1 hf
  exact List.all_eq_true.1 hw (c, f) (by rw [hl]; simp)

/-- The framer's step has a meaning in every phase: TXLEN is inside TXBUF and RXN coherent (R51, R150). -/
theorem exec_phaseStep_next (hi : s.Inv) : ∃ t, exec (phaseStep s.phase) s = .next t := by
  cases s.phase with
  | idle => obtain ⟨-, he⟩ | ⟨r, -, he⟩ := execAccept_cases s <;> exact ⟨_, he⟩
  | send =>
    obtain ⟨r, l, -, he⟩ | ⟨c, r, k, t, -, he, -⟩ | ⟨-, he⟩ := execSend_cases s hi.txlen_le <;> exact ⟨_, he⟩
  | waitA => obtain ⟨-, he⟩ | ⟨-, t, he, -⟩ := execWaitA_cases s <;> exact ⟨_, he⟩
  | hdr =>
    obtain ⟨r, a, b, rest, -, -, he⟩ | ⟨r, -, -, he⟩ | ⟨c, r, n, t, -, -, -, he, -⟩ | ⟨-, he⟩ := execRdhdr_cases s <;>
      exact ⟨_, he⟩
  | data =>
    obtain ⟨r, -, -, he⟩ | ⟨r, t, -, -, he, -⟩ | ⟨c, r, n, t, -, -, -, he, -⟩ | ⟨-, he⟩ := execRddata_cases s <;>
      exact ⟨_, he⟩
  | waitB => obtain ⟨-, he⟩ | ⟨-, t, he, -⟩ := execWaitB_cases s <;> exact ⟨_, he⟩
  | cks =>
    obtain ⟨r, c, rest, -, -, he⟩ | ⟨r, t, -, -, he, -⟩ | ⟨c, r, n, t, -, -, -, he, -⟩ | ⟨-, he⟩ := execRdcks_cases s <;>
      exact ⟨_, he⟩
  | decode => exact ⟨_, (execParse_eq s).trans (if_pos hi.rxn_eq)⟩

theorem runFetched_framer_next (hi : s.Inv) : ∃ t, runFetched (.run (phaseImage s.phase) s) = .next t := by
  rw [runFetched_phase]
  exact exec_phaseStep_next hi

/-- The dispatcher stops at a frame of the table only, which the host's duty 3 makes well formed (R170). -/
theorem runFetched_dispatcher_next (hw : s.cfg.wellFormed = true) : ∃ t, runFetched (dispatcherFetch s) = .next t := by
  by_cases hr : s.phase = .idle ∧ s.req = none
  · obtain ⟨hp, hn⟩ := hr
    match hq : s.hostq with
    | [] => exact ⟨s, by rw [dispatcherFetch_nothing (.inr (.inr hq)), runFetched_moved]⟩
    | .request rq :: q => exact ⟨_, by rw [dispatcherFetch_request hp hn hq, runFetched_moved]⟩
    | .command c :: q =>
      rw [dispatcherFetch_command hp hn hq, runFetched_host]
      obtain ⟨f, hf, hbad, -⟩ | ⟨_, _, -, he⟩ | he := exec_hostInstr_cases c { s with hostq := q }
      · cases hbad.symm.trans (wf_of_encodeCmd hw hf)
      · exact ⟨_, he⟩
      · exact ⟨_, he⟩
  · exact ⟨s, by rw [dispatcherFetch_nothing ((Decidable.not_and_iff_not_or_not.1 hr).imp_right .inl), runFetched_moved]⟩

theorem runFetched_default_next (hi : s.Inv) (hw : s.cfg.wellFormed = true) :
    ∃ t, runFetched (defaultFetch s) = .next t := by
  unfold defaultFetch
  split
  · exact runFetched_framer_next hi
  split
  · exact ⟨_, runFetched_moved _⟩
  split
  · exact runFetched_dispatcher_next hw
  · exact runFetched_framer_next hi

theorem runFetched_present_next {f : Frame} (hf : Codec.wf f.bytes = true) (g : VideoCommand) :
    ∃ t, runFetched (.run ⟨.request g, f.bytes⟩ s) = .next t := by
  rw [runFetched_request, if_pos hf]
  obtain ⟨hbad, -⟩ | ⟨_, _, -, he⟩ := exec_frame_cases f g s
  · cases hbad.symm.trans hf
  · exact ⟨_, he⟩

end Sys2Proof.Machine

open Sys2Proof Sys2Proof.Machine

/-- Settles O45: each clause is what is fetched for the agent that moves. -/
theorem stepRunsTheDecodedOperation : Obligations.StepRunsTheDecodedOperation := by
  intro s i r
  refine ⟨fun hs hd => ?_, fun hs hf hd => ?_, fun n l hs hd => ?_, fun f g hs hd => ?_, fun c q hs hp hn hq hd => ?_,
    fun rq q hs hp hn hq => ?_, fun hs h => ?_, fun hs hp hn => ⟨fun hl => ?_, fun hl hq => ?_⟩⟩
  · exact (step_of_cons hs).trans (runFetched_of_decode hd)
  · rw [step_of_nil hs, defaultFetch_framer hf]
    exact runFetched_of_decode hd
  · exact (step_of_cons hs).trans (runFetched_of_decode hd)
  · exact (step_of_cons hs).trans (runFetched_of_decode hd)
  · rw [step_of_cons hs, fetchMove, dispatcherFetch_command (s := { s with schedule := r }) hp hn hq]
    exact runFetched_of_decode hd
  · rw [step_of_cons hs, fetchMove, dispatcherFetch_request (s := { s with schedule := r }) hp hn hq, runFetched_moved]
  · rw [step_of_cons hs, fetchMove, dispatcherFetch_nothing (s := { s with schedule := r }) h, runFetched_moved]
  · have hu : { s with schedule := [] } = s := by rw [← hs]
    rw [step_of_nil hs, defaultFetch_hub hp hn hl, step_of_cons (s := { s with schedule := [.hub] }) rfl]
    exact congrArg (fun u => runFetched (.moved (hubStep u))) hu.symm
  · have hu : { s with schedule := [] } = s := by rw [← hs]
    rw [step_of_nil hs, defaultFetch_dispatcher hp hn hl hq, step_of_cons (s := { s with schedule := [.dispatcher] }) rfl]
    exact congrArg (fun u => runFetched (dispatcherFetch u)) hu.symm

/-- Settles O46: none of these moves is an operation to decode; a new subscriber's view is the stream dropped
whole. -/
theorem environmentMovesTouchOnlyTheirPort : Obligations.EnvironmentMovesTouchOnlyTheirPort := by
  intro s r
  refine ⟨fun bs hs => step_device hs, fun hs => step_of_cons hs, fun a hs => step_of_cons hs,
    fun c hs => step_of_cons hs, fun n hs => ?_⟩
  exact ⟨⟨n, (streamItems s n).length⟩, rfl, List.drop_length, rfl, step_of_cons hs⟩

/-- Settles O47: the reset state evaluates. -/
theorem resetLeavesTheStatedValues : Obligations.ResetLeavesTheStatedValues :=
  ⟨rfl, rfl, rfl, rfl, rfl, rfl, rfl, rfl, rfl, rfl, rfl, ⟨rfl, rfl, rfl⟩, rfl⟩

/-- Settles O48: no cycle runs, nothing is published, and RXN is the length nibble of the zero header. -/
theorem resetMeetsTheStateInvariant : Obligations.ResetMeetsTheStateInvariant where
  txlen_le := Nat.zero_le 18
  stamped := fun h => absurd rfl h
  rxn_eq := rfl
  data_pos := nofun
  req_idle := fun h => absurd rfl h
  req_wf := nofun
  queue_wf := nofun
  tmr_expired := rfl
  tc_eq := rfl
  ub_local_eq := rfl
  ub_vert_eq := rfl
  state_eq := rfl
  hub_le := Nat.le_refl 0
  hub_tc := rfl
  hub_state := rfl
  subscribed := nofun

/-- Settles O50, by the agent that moves: the framer by the invariant, the host's presentations by its duty 3. -/
theorem onlyCodecCallsCanStop : Obligations.OnlyCodecCallsCanStop := by
  intro s hi hw hcodec hpresent
  match hs : s.schedule with
  | [] =>
    rw [step_of_nil hs]
    exact runFetched_default_next hi hw
  | m :: r =>
    rw [step_of_cons hs]
    cases m with
    | framer => exact runFetched_framer_next (s := { s with schedule := r }) { hi with }
    | dispatcher => exact runFetched_dispatcher_next hw
    | present f g => exact runFetched_present_next (hpresent f g r hs) g
    | codec n l => exact absurd hs (hcodec n l r)
    | _ => exact ⟨_, rfl⟩

end

section
/-! The codec calls (spec/40 to spec/43): the frame shape, SPLIT, VERIFY's laws, the timecode encoders, the header
tests and the userbits view (O5, O6, O9, O11, O12, O14 to O16). -/

namespace Sys2Proof.Codec

open Machine (byteSum cksum_eq_iff_byteSum)

/-! ### The frame shape -/

theorem wf_iff_cons (f : List Byte) :
    wf f = true ↔ ∃ c1 rest, f = c1 :: rest ∧ 3 ≤ f.length ∧ f.length = 3 + c1.toNat % 16 := by
  rw [wf_iff]
  cases f with
  | nil => simp
  | cons c1 rest => simp [len, lo]

theorem wfs_iff (f : List Byte) :
    wfs f = true ↔ wf f = true ∧ ∃ body c, f = body ++ [c] ∧ c.toNat = byteSum body % 256 := by
  rw [wfs, Bool.and_eq_true, beq_iff_eq]
  refine and_congr_right fun hw => ?_
  have hne : f ≠ [] := by rintro rfl; simp [wf_iff] at hw
  constructor
  · intro hc
    exact ⟨f.dropLast, f.getLastD 0, (dropLast_concat_getLastD hne).symm, ((cksum_eq_iff_byteSum _ _).1 hc.symm).symm⟩
  · rintro ⟨body, c, rfl, hc⟩
    rw [List.dropLast_concat, List.getLastD_eq_getLast?, List.getLast?_concat]
    exact ((cksum_eq_iff_byteSum body c).2 hc.symm).symm

theorem split_eq_some_iff (f : List Byte) (h : Header) (d : List Byte) (c : Byte) :
    split f = some (h, d, c) ↔ f = [h.cmd1, h.cmd2] ++ d ++ [c] ∧ d.length = h.cmd1.toNat % 16 :=
  ⟨split_some, fun ⟨hf, hd⟩ => hf ▸ split_parts c hd⟩

/-! ### The laws of VERIFY -/

theorem cksum_perm {l l' : List Byte} (h : l.Perm l') : cksum l = cksum l' := by
  rw [cksum, cksum, (h.map BitVec.toNat).sum_nat]

theorem verify_perm (h : Header) {d d' : List Byte} (hp : d.Perm d') (c : Byte) : verify h d c = verify h d' c := by
  rw [verify, verify, cksum_perm (hp.append_left h.bytes)]

/-- A change of one byte of a sequence changes its checksum, because the sum is one in a group. -/
theorem cksum_change_ne (pre post : List Byte) {x y : Byte} (hxy : x ≠ y) :
    cksum (pre ++ x :: post) ≠ cksum (pre ++ y :: post) := by
  simp only [cksum_append, cksum_cons, ne_eq, BitVec.add_right_inj, BitVec.add_left_inj]
  exact hxy

/-- A change of one byte of a verified frame, in its body or in its last byte, leaves a frame that does not
verify (R93 (f)). -/
theorem cksum_ne_of_change {body body' pre post : List Byte} {c c' x y : Byte} (hb : body ++ [c] = pre ++ x :: post)
    (hb' : body' ++ [c'] = pre ++ y :: post) (hxy : x ≠ y) (hc : cksum body = c) : cksum body' ≠ c' := by
  obtain rfl | ⟨post, z, rfl⟩ := List.eq_nil_or_concat post
  · obtain ⟨rfl, hx⟩ := List.append_inj' hb rfl
    obtain ⟨rfl, hy⟩ := List.append_inj' hb' rfl
    cases hx
    cases hy
    rwa [hc]
  · rw [List.concat_eq_append, ← List.cons_append, ← List.append_assoc] at hb hb'
    obtain ⟨rfl, hz⟩ := List.append_inj' hb rfl
    obtain ⟨rfl, hz'⟩ := List.append_inj' hb' rfl
    cases hz
    cases hz'
    exact hc ▸ (cksum_change_ne pre post hxy).symm

/-! ### The timecode codec -/

/-- R114 (b): the byte comes back exactly when its units nibble is a decimal digit. -/
theorem tcenc_tcdec_iff (b : Byte) : (tcdec b ≤ 159 ∧ tcenc (tcdec b) = b) ↔ lo b ≤ 9 :=
  ⟨fun ⟨hd, he⟩ => he ▸ lo_tcenc_le hd, fun h => ⟨tcdec_le_of_lo h, tcenc_tcdec h⟩⟩

/-! ### Userbits -/

theorem ubpack_of_absent {u : Userbits} (h : u.localGroup = none ∨ u.verticalGroup = none) : ubpack u = none := by
  obtain ⟨l, v⟩ := u
  obtain rfl | rfl := h
  · rfl
  · cases l <;> rfl

/-! ### The header tests -/

theorem isubl_iff_fields (P : Config) (h : Header) : isubl P h = true ↔
    ∃ x ∈ P.ubLocalHdr, h.cmd1.toNat = 16 * x.g.toNat + 4 ∧ h.cmd2 = x.c := by
  simp only [isubl_iff, Hdr4.eq_header_iff]

theorem isubv_iff_fields (P : Config) (h : Header) : isubv P h = true ↔
    ∃ x ∈ P.ubVertHdr, h.cmd1.toNat = 16 * x.g.toNat + 4 ∧ h.cmd2 = x.c := by
  simp only [isubv_iff, Hdr4.eq_header_iff]

theorem istc_iff_fields (P : Config) (h : Header) : istc P h = true ↔
    ∃ x ∈ [P.tcHdr.ltc, P.tcHdr.vtc, P.tcHdr.altLtc, P.tcHdr.timer1, P.tcHdr.timer2],
      h.cmd1.toNat = 16 * x.g.toNat + 4 ∧ h.cmd2 = x.c := by
  simp only [istc_iff, Hdr4.eq_header_iff]

end Sys2Proof.Codec

namespace Sys2Proof.Machine

/-! ### The answers of the operations -/

theorem exec_verify (s : State) (h : Header) (d : List Byte) (c : Byte) :
    exec (.verify h d c) s = .next (s.answer (.truth (Codec.verify h d c))) := rfl

theorem answers_tcenc {v : Int} (h : Codec.tcencDomain v = true) (s : State) :
    answers (.tcenc v) s (.byte (Codec.tcenc v.toNat)) := if_pos h

theorem exec_tcenc_of_not_domain {v : Int} (h : ¬Codec.tcencDomain v = true) (s : State) :
    exec (.tcenc v) s = .refused .tcencDomain := if_neg h

theorem answers_tc4enc {t : Timecode} (h : Codec.tc4encDomain t = true) (s : State) :
    answers (.tc4enc t) s (.bytes (Codec.tc4enc t).bytes) := if_pos h

theorem exec_tc4enc_of_not_domain {t : Timecode} (h : ¬Codec.tc4encDomain t = true) (s : State) :
    exec (.tc4enc t) s = .refused .tc4encDomain := if_neg h

/-- A codec call's answer is the value it leaves. -/
theorem answers_inj {i : Instr} {s : State} {v w : CodecValue} (h : answers i s v) (h' : answers i s w) : v = w := by
  have := h.symm.trans h'
  injection this with this
  exact Option.some.inj (congrArg State.result this)

/-- TCENC answers the byte `b` exactly when `v` is in its domain and `b` its encoding. -/
theorem answers_tcenc_iff (s : State) (v : Nat) (b : Byte) :
    answers (.tcenc v) s (.byte b) ↔ v ≤ 159 ∧ Codec.tcenc v = b := by
  by_cases hv : v ≤ 159
  · have ha : answers (.tcenc v) s (.byte (Codec.tcenc v)) :=
      answers_tcenc ((Codec.tcencDomain_iff v).2 (by omega)) s
    exact ⟨fun h => ⟨hv, CodecValue.byte.inj (answers_inj ha h)⟩, fun ⟨_, h⟩ => h ▸ ha⟩
  · refine ⟨fun h => ?_, fun h => absurd h.1 hv⟩
    cases h.symm.trans (exec_tcenc_of_not_domain (by rw [Codec.tcencDomain_iff]; omega) s)

end Sys2Proof.Machine

open Sys2Proof Sys2Proof.Machine

/-- Settles O6: SPLIT leaves `split f`, which takes a frame apart exactly when it is put together from the parts. -/
theorem splitCutsExactlyTheWellFormedFrames : Obligations.SplitCutsExactlyTheWellFormedFrames := fun _ f =>
  ⟨Codec.split f, rfl, Codec.split_eq_some_iff f⟩

/-- Settles O14: the sum does not see the order, and one changed byte changes it (or changes what it is compared
with). -/
theorem verifyIgnoresOrderAndSeesOneChangedByte : Obligations.VerifyIgnoresOrderAndSeesOneChangedByte := by
  refine fun s h d c => ⟨fun d' hp => by rw [exec_verify, exec_verify, Codec.verify_perm h hp], ?_⟩
  intro hv pre post x y hf hxy h' d' c' hf'
  have hc : Codec.verify h d c = true := CodecValue.truth.inj (answers_inj (answers_verify s h d c) hv)
  have hne := Codec.cksum_ne_of_change hf hf' hxy ((Codec.verify_iff h d c).1 hc)
  have hn : Codec.verify h' d' c' = false := by
    rw [← Bool.not_eq_true, Codec.verify_iff]
    exact hne
  exact hn ▸ answers_verify s h' d' c'

/-- Settles O16: the codec's round trips on the domain of TCENC, and on it alone. -/
theorem timecodeCodecRoundTrips : Obligations.TimecodeCodecRoundTrips := by
  refine fun s => ⟨fun v hv => ?_, fun b => ?_, fun t hf hs hm hh => ?_⟩
  · have hd := answers_tcdec s (Codec.tcenc v)
    rw [Codec.tcdec_tcenc hv] at hd
    exact ⟨Codec.tcenc v, (answers_tcenc_iff s v _).2 ⟨hv, rfl⟩, hd⟩
  · exact ⟨Codec.tcdec b, answers_tcdec s b, (answers_tcenc_iff s _ b).trans (Codec.tcenc_tcdec_iff b)⟩
  · have ht := (Codec.tc4encDomain_iff t).2 ⟨hf, hs, hm, hh⟩
    have hd := answers_tc4dec s (Codec.tc4enc t)
    rw [Codec.tc4dec_tc4enc ht] at hd
    exact ⟨Codec.tc4enc t, answers_tc4enc ht s, hd⟩

/-- Settles O5: FLEN, WF and WFS leave their codec function's value. -/
theorem flenWfAndWfsDecideTheFrameShape : Obligations.FlenWfAndWfsDecideTheFrameShape := by
  refine ⟨fun s b => ?_, fun s f => ⟨Codec.wf f, Codec.wfs f, rfl, rfl, Codec.wf_iff_cons f, Codec.wfs_iff f⟩⟩
  have h : Codec.flen b = 3 + b.toNat % 16 := Codec.flen_eq b
  exact h ▸ rfl

/-- Settles O9: each encoder tests its domain first, and on it writes the two digits of each component. -/
theorem timecodeEncodersWorkOnTheirDomain : Obligations.TimecodeEncodersWorkOnTheirDomain := by
  intro s v t
  rw [← Codec.tcencDomain_iff, ← Codec.tc4encDomain_iff]
  refine ⟨fun h => ?_, fun h => exec_tcenc_of_not_domain h s, fun h => ?_, fun h => exec_tc4enc_of_not_domain h s⟩
  · have hv := (Codec.tcencDomain_iff v).1 h
    exact ⟨_, answers_tcenc h s, Codec.toNat_tcenc (by omega)⟩
  · obtain ⟨hf, hs, hm, hh⟩ := (Codec.tc4encDomain_iff t).1 h
    exact ⟨_, _, _, _, answers_tc4enc h s, Codec.toNat_tcenc hf, Codec.toNat_tcenc hs, Codec.toNat_tcenc hm,
      Codec.toNat_tcenc hh⟩

/-- Settles O11: each test leaves its codec function's value, which compares both bytes of the header. -/
theorem headerTestsCompareAllSixteenBits : Obligations.HeaderTestsCompareAllSixteenBits := fun s h =>
  ⟨_, _, _, _, rfl, rfl, rfl, rfl, Codec.istc_iff_fields s.cfg h, Codec.isubl_iff_fields s.cfg h,
    Codec.isubv_iff_fields s.cfg h, Codec.isstatus_iff s.cfg h⟩

/-- Settles O12: UBDEC is the identity; UBPACK has a value when both groups are present only. -/
theorem userbitsCodecKeepsWireOrder : Obligations.UserbitsCodecKeepsWireOrder := by
  refine fun s q v u => ⟨rfl, rfl, fun h => ?_⟩
  show execUbpack u s = _
  rw [execUbpack, Codec.ubpack_of_absent h]

/-- Settles O15: the stamped byte is the checksum VERIFY recomputes. -/
theorem stampedFramesAlwaysVerify : Obligations.StampedFramesAlwaysVerify := by
  intro s h d slot
  have hv := answers_verify s h d (Codec.cksum (h.bytes ++ d))
  rw [Codec.verify_cksum] at hv
  exact ⟨_, answers_stamp s _ slot, toNat_cksum_eq_byteSum _, hv⟩

end

section
/-! The framer's steps, each on its own (spec/44_framer_cycle.md; O17, O19 to O27, O29, O36): an equation for the
step when its primitives answer `ok`, and for the three reads what they have in common. -/

namespace Sys2Proof.Machine

variable {s t : State}

/-! ### SEND -/

theorem exec_send_ok (hl : s.txlen.toNat ≤ 18) (hc : s.okAnswers 1) : exec .send s = .next { s with
    txstream := s.txstream ++ s.txbuf.bytes.take s.txlen.toNat
    chan := s.chan.drop 1
    log := if s.cfg.debug then s.log ++ [.outbound (Codec.hexfmt (s.txbuf.bytes.take s.txlen.toNat)) s.tag] else s.log
    phase := .waitA } := by
  show execSend s = _
  rw [execSend, memRead_txbuf s hl, withBuf_some, chanWrite_ok hc]
  rfl

theorem exec_send_failed {c : Cause} {k : Nat} {r : List ChanAnswer} (hl : s.txlen.toNat ≤ 18)
    (hc : s.chan = .failed c k :: r) : exec .send s = .next (channelFailed c { s with
      chan := r, txstream := s.txstream ++ (s.txbuf.bytes.take s.txlen.toNat).take k }) := by
  show execSend s = _
  rw [execSend, memRead_txbuf s hl, withBuf_some, chanWrite, hc]
  rfl

theorem exec_send_never {r : List ChanAnswer} (hl : s.txlen.toNat ≤ 18) (hc : s.chan = .never :: r) :
    exec .send s = .next s := by
  show execSend s = _
  rw [execSend, memRead_txbuf s hl, withBuf_some, chanWrite, hc]
  rfl

/-! ### What a raise leaves alone -/

theorem raisedByCause.txstream {c : Cause} (h : raisedByCause s t c) : t.txstream = s.txstream := by
  cases c with
  | io k => exact (congrArg State.txstream h.2).trans rfl
  | interruption k => exact (congrArg State.txstream h.2).trans rfl

theorem raisedByCause.rxfifo {c : Cause} (h : raisedByCause s t c) : t.rxfifo = s.rxfifo := by
  cases c with
  | io k => exact (congrArg State.rxfifo h.2).trans rfl
  | interruption k => exact (congrArg State.rxfifo h.2).trans rfl

/-! ### The waits -/

theorem exec_waitA_ok (hi : s.intr = false) : exec .waitA s = .next { s with
    tmr := .expired, waitedMs := s.waitedMs + s.cfg.delay, phase := .hdr } := by
  show execWaitA s = _
  rw [execWaitA, wait_idle hi]
  rfl

theorem exec_waitB_ok (hi : s.intr = false) : exec .waitB s = .next { s with
    tmr := .expired, waitedMs := s.waitedMs + s.cfg.delay, phase := .cks } := by
  show execWaitB s = _
  rw [execWaitB, wait_idle hi]
  rfl

theorem exec_waitA_pending (hi : s.intr = true) :
    exec .waitA s = .next (raiseError { s.clearIntr with tmr := .expired } .interrupted none) := by
  show execWaitA s = _
  rw [execWaitA, wait_pending hi]

theorem exec_waitB_pending (hi : s.intr = true) :
    exec .waitB s = .next (raiseError { s.clearIntr with tmr := .expired } .interrupted none) := by
  show execWaitB s = _
  rw [execWaitB, wait_pending hi]

/-! ### The reads -/

/-- What RDHDR, RDDATA and RDCKS have in common: a ChanAvail, and with `n` bytes available a ChanRead of them. -/
def readStep (n : Nat) (got : List Byte → State → Result) (short : State → Result) (s : State) : Result :=
  withChan s (chanAvail s) fun a s1 => if n ≤ a then withChan s (chanRead s1 n) got else short s1

/-- RDHDR with its two bytes read (R134). -/
def gotHeader (v : List Byte) (s : State) : Result :=
  withBuf (memWrite s .rxhdr 0 v) fun s3 => .next { s3 with
    rxn := BitVec.ofNat 4 (Codec.len (v.getD 0 0))
    phase := if 0 < Codec.len (v.getD 0 0) then .data else .waitB }

/-- RDDATA with its bytes read (R135). -/
def gotData (v : List Byte) (s : State) : Result :=
  withBuf (memWrite s .rxdata 0 v) fun s3 => .next (s3.setPhase .waitB)

/-- RDCKS with its byte read (R137). -/
def gotCks (v : List Byte) (s : State) : Result := .next { s with rxcks := v.getD 0 0, phase := .decode }

theorem exec_rdhdr_eq (s : State) : exec .rdhdr s = readStep 2 gotHeader (fun s1 => .next (s1.setPhase .idle)) s := rfl

theorem exec_rddata_eq (s : State) :
    exec .rddata s = readStep s.rxn.toNat gotData (fun s1 => .next (raiseError s1 .missingData none)) s := rfl

theorem exec_rdcks_eq (s : State) :
    exec .rdcks s = readStep 1 gotCks (fun s1 => .next (raiseError s1 .missingChecksum none)) s := rfl

section
variable {n : Nat} {got : List Byte → State → Result} {short : State → Result} {c : Cause} {k : Nat}
  {r : List ChanAnswer}

theorem readStep_ok (hc : s.okAnswers 2) (hn : n ≤ s.rxfifo.length) : readStep n got short s =
    got (s.rxfifo.take n) { s with chan := s.chan.drop 2, rxfifo := s.rxfifo.drop n } := by
  have hr : State.okAnswers { s with chan := s.chan.drop 1 } 1 := okAnswers_tail hc _ rfl
  rw [readStep, chanAvail_ok (by omega) hc, withChan_ok, if_pos hn, chanRead_ok hr hn, withChan_ok, List.drop_drop]

theorem readStep_short (hc : s.okAnswers 1) (hn : s.rxfifo.length < n) :
    readStep n got short s = short { s with chan := s.chan.drop 1 } := by
  rw [readStep, chanAvail_ok (by omega) hc, withChan_ok, if_neg (by omega)]

theorem readStep_avail_failed (hc : s.chan = .failed c k :: r) :
    readStep n got short s = .next (channelFailed c { s with chan := r }) := by
  rw [readStep, chanAvail, hc]
  rfl

theorem readStep_read_failed (hc : s.chan = .ok :: .failed c k :: r) (hn : n ≤ s.rxfifo.length) : readStep n got short s =
    .next (channelFailed c { s with chan := r, rxfifo := s.rxfifo.drop (min k n) }) := by
  rw [readStep, chanAvail, hc]
  exact if_pos hn

theorem readStep_avail_never (hc : s.chan = .never :: r) : readStep n got short s = .next s := by
  rw [readStep, chanAvail, hc]
  rfl

theorem readStep_read_never (hc : s.chan = .ok :: .never :: r) (hn : n ≤ s.rxfifo.length) :
    readStep n got short s = .next s := by
  rw [readStep, chanAvail, hc]
  exact if_pos hn

end

/-- Each of the three reads with the number of bytes it asks for. -/
theorem exec_read_eq {p : Instr × Nat} (hp : p ∈ [(Instr.rdhdr, 2), (Instr.rddata, s.rxn.toNat), (Instr.rdcks, 1)]) :
    ∃ got short, ∀ u : State, u.rxn = s.rxn → exec p.1 u = readStep p.2 got short u := by
  simp only [List.mem_cons, List.not_mem_nil, or_false] at hp
  obtain rfl | rfl | rfl := hp
  · exact ⟨_, _, fun u _ => exec_rdhdr_eq u⟩
  · exact ⟨_, _, fun u hu => hu ▸ exec_rddata_eq u⟩
  · exact ⟨_, _, fun u _ => exec_rdcks_eq u⟩

/-! ### What the reads store -/

theorem gotHeader_eq (s : State) (a b : Byte) : gotHeader [a, b] s = .next { s with
    rxhdr := ⟨a, b⟩
    rxn := BitVec.ofNat 4 (Codec.len a)
    phase := if 0 < Codec.len a then .data else .waitB } := by
  rw [gotHeader, memWrite_rxhdr, withBuf_some]
  rfl

/-- RXDATA after RDDATA of the bytes `d`: `d` over the front of the old contents. -/
def readInto (b : Buffer 15) (d : List Byte) : Buffer 15 := Buffer.ofList 15 (d ++ b.bytes.drop d.length)

theorem bytes_readInto (b : Buffer 15) {d : List Byte} (hd : d.length ≤ 15) :
    (readInto b d).bytes = d ++ b.bytes.drop d.length := Buffer.bytes_front b hd

theorem gotData_eq (s : State) {v : List Byte} (hv : v.length ≤ 15) :
    gotData v s = .next { s with rxdata := readInto s.rxdata v, phase := .waitB } := by
  rw [gotData, memWrite_rxdata s hv, withBuf_some]
  rfl

theorem toNat_ofNat_len (b : Byte) : (BitVec.ofNat 4 (Codec.len b)).toNat = b.toNat % 16 := by
  rw [BitVec.toNat_ofNat]
  exact Nat.mod_eq_of_lt (Codec.len_lt b)

theorem exec_rdhdr_ok {a b : Byte} {rest : List Byte} (hf : s.rxfifo = a :: b :: rest) (hc : s.okAnswers 2) :
    exec .rdhdr s = .next { s with
      rxhdr := ⟨a, b⟩
      rxn := BitVec.ofNat 4 (Codec.len a)
      rxfifo := rest
      chan := s.chan.drop 2
      phase := if 0 < Codec.len a then .data else .waitB } := by
  rw [exec_rdhdr_eq, readStep_ok hc (by simp [hf]), hf]
  exact gotHeader_eq _ a b

/-- RXN is at most 15, so the bytes it announces fit RXDATA. -/
theorem length_take_rxn_le (s : State) : (s.rxfifo.take s.rxn.toNat).length ≤ 15 :=
  Nat.le_trans (List.length_take_le _ _) (Nat.le_of_lt_succ s.rxn.isLt)

theorem exec_rddata_ok (hn : s.rxn.toNat ≤ s.rxfifo.length) (hc : s.okAnswers 2) : exec .rddata s = .next { s with
    rxdata := readInto s.rxdata (s.rxfifo.take s.rxn.toNat)
    rxfifo := s.rxfifo.drop s.rxn.toNat
    chan := s.chan.drop 2
    phase := .waitB } := by
  rw [exec_rddata_eq, readStep_ok hc hn, gotData_eq _ (length_take_rxn_le s)]

theorem exec_rdcks_ok {c : Byte} {rest : List Byte} (hf : s.rxfifo = c :: rest) (hc : s.okAnswers 2) :
    exec .rdcks s = .next { s with rxcks := c, rxfifo := rest, chan := s.chan.drop 2, phase := .decode } := by
  rw [exec_rdcks_eq, readStep_ok hc (by simp [hf]), hf]
  rfl

/-! ### The checksum gate -/

theorem exec_pVerify_of_verify {h : Header} {d : List Byte} {c : Byte} (hv : Codec.verify h d c = true) (s : State) :
    exec (.pVerify h d c) s = .next s := congrArg _ (if_pos hv)

theorem exec_pVerify_of_not_verify {h : Header} {d : List Byte} {c : Byte} (hv : ¬Codec.verify h d c = true) (s : State) :
    exec (.pVerify h d c) s = .next { s with
      evlog := s.evlog ++ [.err ⟨.checksumMismatch, none, some h, some d, some c⟩] } := congrArg _ (if_neg hv)

end Sys2Proof.Machine

open Sys2Proof Sys2Proof.Machine

/-- Settles O20: the channel sends as many bytes of the frame as its answer says, cut to the frame. -/
theorem failedWriteSendsAnyPrefixAndRaises : Obligations.FailedWriteSendsAnyPrefixAndRaises := by
  refine fun s r hl => ⟨fun c k hc => ?_, fun c pre hpre => ?_⟩
  · exact ⟨_, _, List.take_prefix k _, exec_send_failed hl hc, raisedByCause_channelFailed c _⟩
  · have he := exec_send_failed (s := { s with chan := .failed c pre.length :: r }) hl rfl
    refine ⟨pre.length, _, he, ?_⟩
    rw [(raisedByCause_channelFailed c _).txstream]
    exact congrArg _ (List.prefix_iff_eq_take.1 hpre).symm

/-- Settles O26: the three reads are one `readStep`; a failed ChanRead loses as many bytes as its answer says, cut
to the number asked for. -/
theorem failedReadsRaiseByTheirCause : Obligations.FailedReadsRaiseByTheirCause := by
  intro s c r p hp
  obtain ⟨got, short, hread⟩ := exec_read_eq hp
  refine ⟨fun k hc => ?_, fun hn => ⟨fun k hc => ?_, fun n hle => ?_⟩⟩
  · rw [hread s rfl, readStep_avail_failed hc]
    exact ⟨_, rfl, raisedByCause_channelFailed c _⟩
  · rw [hread s rfl, readStep_read_failed hc hn]
    exact ⟨_, _, Nat.min_le_right k p.2, rfl, raisedByCause_channelFailed c _⟩
  · have he := (hread { s with chan := .ok :: .failed c n :: r } rfl).trans (readStep_read_failed rfl hn)
    refine ⟨n, _, he, ?_⟩
    rw [(raisedByCause_channelFailed c _).rxfifo, Nat.min_eq_left hle]

/-- Settles O17: the three ways FRAME goes are the tests of `execFrame`. -/
theorem presentedFrameIsHeldByThePort : Obligations.PresentedFrameIsHeldByThePort := by
  intro s f g
  have hfree : (ready s && s.hostq.isEmpty) = true ↔ s.phase = .idle ∧ s.req = none ∧ s.hostq = [] := by
    rw [Bool.and_eq_true, ready_iff, List.isEmpty_iff, and_assoc]
  show (_ → (_ → execFrame f g s = _) ∧ (_ → execFrame f g s = _)) ∧ (_ → execFrame f g s = _)
  rw [← hfree, execFrame]
  refine ⟨fun hw => ⟨fun hf => ?_, fun hf => ?_⟩, fun hw => ?_⟩
  · rw [hw, Bool.not_true, if_neg (by simp), if_pos hf]
  · rw [hw, Bool.not_true, if_neg (by simp), if_neg hf]
  · rw [hw, Bool.not_false, if_pos rfl]

/-- Settles O19: SEND's one write is of all the frame, and the log line's text is HEXFMT's value. -/
theorem sendWritesTheWholeFrame : Obligations.SendWritesTheWholeFrame := fun s hl hc =>
  ⟨_, answers_hexfmt s _, exec_send_ok hl hc⟩

/-- Settles O21: the two waits differ in the phase they select. -/
theorem waitsExpireAndSelectTheNextStep : Obligations.WaitsExpireAndSelectTheNextStep := fun _ hi =>
  ⟨exec_waitA_ok hi, exec_waitB_ok hi⟩

/-- Settles O22: both waits raise Interrupted from the state with INTR cleared. -/
theorem pendingInterruptionAbortsTheWaits : Obligations.PendingInterruptionAbortsTheWaits := by
  intro s hi i hmem
  simp only [List.mem_cons, List.not_mem_nil, or_false] at hmem
  obtain rfl | rfl := hmem
  · exact ⟨_, exec_waitA_pending hi, raised_raiseError _ .interrupted none⟩
  · exact ⟨_, exec_waitB_pending hi, raised_raiseError _ .interrupted none⟩

/-- Settles O23: a `readStep` of two bytes. -/
theorem rdhdrReadsTwoBytesOrEndsSilently : Obligations.RdhdrReadsTwoBytesOrEndsSilently := by
  refine fun s => ⟨fun a b rest hf hc => ⟨_, toNat_ofNat_len a, exec_rdhdr_ok hf hc⟩, fun hn hc => ?_⟩
  rw [exec_rdhdr_eq, readStep_short hc hn]
  rfl

/-- Settles O24: a `readStep` of RXN bytes. -/
theorem rddataReadsTheAnnouncedBytesOrRaises : Obligations.RddataReadsTheAnnouncedBytesOrRaises := by
  refine fun s => ⟨fun hn hc => ⟨_, exec_rddata_ok hn hc, ?_⟩, fun hn hc => ?_⟩
  · rw [bytes_readInto _ (length_take_rxn_le s), List.length_take_of_le hn]
  · rw [exec_rddata_eq, readStep_short hc hn]
    exact ⟨_, rfl, raised_raiseError _ .missingData none⟩

/-- Settles O25: a `readStep` of one byte. -/
theorem rdcksReadsOneByteOrRaises : Obligations.RdcksReadsOneByteOrRaises := by
  refine fun s => ⟨fun c rest hf hc => exec_rdcks_ok hf hc, fun hf hc => ?_⟩
  rw [exec_rdcks_eq, readStep_short hc (by simp [hf])]
  exact ⟨_, rfl, raised_raiseError _ .missingChecksum none⟩

/-- Settles O27: a primitive that never answers gives up the whole step, a ChanAvail before it included. -/
theorem silentChannelHoldsThePhase : Obligations.SilentChannelHoldsThePhase := by
  refine fun s r => ⟨fun hc hl i hi => ?_, fun hc p hp hn => ?_⟩
  · simp only [List.mem_cons, List.not_mem_nil, or_false] at hi
    obtain rfl | rfl | rfl | rfl := hi
    · exact exec_send_never hl hc
    · exact (exec_rdhdr_eq s).trans (readStep_avail_never hc)
    · exact (exec_rddata_eq s).trans (readStep_avail_never hc)
    · exact (exec_rdcks_eq s).trans (readStep_avail_never hc)
  · obtain ⟨got, short, hread⟩ := exec_read_eq hp
    rw [hread s rfl, readStep_read_never hc hn]

/-- Settles O29: the gate emits when VERIFY is false, which is when the sums differ. -/
theorem checksumGateEmitsOneMismatch : Obligations.ChecksumGateEmitsOneMismatch := by
  intro s h d c
  rw [Ne, ← verify_iff_byteSum]
  exact ⟨fun hv => exec_pVerify_of_not_verify hv s, fun hv => exec_pVerify_of_verify hv s⟩

/-- Settles O36: RAISE is `raiseError` with the record `errorRecord` gives each kind. -/
theorem raiseIsTheTrapEntry : Obligations.RaiseIsTheTrapEntry := by
  refine fun s k c => ⟨raiseError s k c, rfl, ?_⟩
  have h := raised_raiseError s k c
  cases k <;> exact h

end

section
/-! What the parser reads (spec/45_response_parser.md R158, R161; O34, O35), and the host's rows (spec/46; O37 to
O40): the dispatcher's commands and the Event Hub's video index. -/

namespace Sys2Proof.Machine

/-! ### The parser's reads -/

/-- The events Parse appends, as a function of what R161 (e) lists. -/
def replyEvents (P : Config) (ul uv : Option UBGroup) (h : Header) (d : List Byte) (c : Byte) (g : VideoCommand) :
    List Event :=
  if !Codec.verify h d c then [.err ⟨.checksumMismatch, none, some h, some d, some c⟩]
  else if Codec.istc P h then [.tc (Codec.tc4dec (Quad.ofList d))]
  else if Codec.isubl P h then [.ub .localCh (Quad.ofList d) ⟨some (Quad.ofList d), uv⟩]
  else if Codec.isubv P h then [.ub .verticalCh (Quad.ofList d) ⟨ul, some (Quad.ofList d)⟩]
  else if Codec.isstatus P h then [.state (Codec.stdec h d g)]
  else []

theorem length_replyEvents_le (P : Config) (ul uv : Option UBGroup) (h : Header) (d : List Byte) (c : Byte)
    (g : VideoCommand) : (replyEvents P ul uv h d c g).length ≤ 1 := by
  unfold replyEvents
  repeat' split
  all_goals simp

/-- The checksum gate, where the parser applies it. -/
theorem gateArm_of_not_verify {h : Header} {d : List Byte} {c : Byte} (hv : (!Codec.verify h d c) = true) (s : State) :
    gateArm s h d c = s.emit (.err ⟨.checksumMismatch, none, some h, some d, some c⟩) :=
  if_neg (by simpa using hv)

theorem parseReply_evlog (s : State) (h : Header) (d : List Byte) (c : Byte) (g : VideoCommand) :
    (parseReply s h d c g).evlog = s.evlog ++ replyEvents s.cfg s.curUbLocal s.curUbVert h d c g := by
  unfold parseReply replyEvents
  split
  · rw [gateArm_of_not_verify ‹_›]; rfl
  split
  · rfl
  split
  · rfl
  split
  · rfl
  split
  · rfl
  · exact (List.append_nil _).symm

/-- R158: outside the status class the parser neither reads the tag nor writes it. -/
theorem parseReply_tag {s : State} {h : Header} (hs : Codec.isstatus s.cfg h = false) (d : List Byte) (c : Byte)
    (g g' : VideoCommand) : parseReply { s with tag := g' } h d c g' = { parseReply s h d c g with tag := g' } := by
  unfold parseReply
  dsimp only
  rw [hs]
  split
  · rw [gateArm_of_not_verify ‹_›, gateArm_of_not_verify ‹_›]; rfl
  split
  · rfl
  split
  · rfl
  split
  · rfl
  · rfl

theorem execParse_next {s t : State} (h : exec .parse s = .next t) : s.rxn.toNat = Codec.len s.rxhdr.cmd1 ∧
    t = (parseReply
      (s.debugLog (.inbound (Codec.hexfmt (s.rxhdr.bytes ++ s.rxdata.bytes.take s.rxn.toNat ++ [s.rxcks]))))
      s.rxhdr (s.rxdata.bytes.take s.rxn.toNat) s.rxcks s.tag).setPhase .idle := by
  have he := (execParse_eq s).symm.trans h
  split at he
  · cases he; exact ⟨‹_›, rfl⟩
  · cases he

theorem exec_parse_evlog {s t : State} (h : exec .parse s = .next t) : t.evlog = s.evlog ++
    replyEvents s.cfg s.curUbLocal s.curUbVert s.rxhdr (s.rxdata.bytes.take s.rxn.toNat) s.rxcks s.tag := by
  rw [(execParse_next h).2]
  exact parseReply_evlog ..

/-! ### The Event Hub -/

/-- The value of R176: a fresh timestamp when the last state says recording, none otherwise. -/
theorem videoIndexNow_eq (s : State) : ∃ ts d, videoIndexNow s = (⟨ts, s.latestTc⟩, d) ∧
    ((∃ v, s.latestState = some v ∧ Config.isRecording v = true) → ts = some (Config.now s.draws) ∧ d = s.draws + 1) ∧
    ((∀ v, s.latestState = some v → Config.isRecording v = false) → ts = none ∧ d = s.draws) := by
  unfold videoIndexNow
  match s.latestState with
  | none => exact ⟨none, s.draws, rfl, fun ⟨_, hv, _⟩ => (nomatch hv), fun _ => ⟨rfl, rfl⟩⟩
  | some st =>
    dsimp only
    split
    · rename_i hr
      exact ⟨_, _, rfl, fun _ => ⟨rfl, rfl⟩, fun h => by rw [h st rfl] at hr; cases hr⟩
    · rename_i hr
      exact ⟨_, _, rfl, fun ⟨v, hv, h⟩ => by cases hv; exact absurd h hr, fun _ => ⟨rfl, rfl⟩⟩

/-- `recompute` publishes the value of R176 exactly when it differs from the last one (R177). -/
theorem recompute_eq (s : State) : ∃ ts d vs lv,
    recompute s = { s with draws := d, viStream := vs, lastVi := lv } ∧
    ((∃ v, s.latestState = some v ∧ Config.isRecording v = true) → ts = some (Config.now s.draws) ∧ d = s.draws + 1) ∧
    ((∀ v, s.latestState = some v → Config.isRecording v = false) → ts = none ∧ d = s.draws) ∧
    (s.lastVi = some ⟨ts, s.latestTc⟩ → vs = s.viStream ∧ lv = s.lastVi) ∧
    (s.lastVi ≠ some ⟨ts, s.latestTc⟩ → vs = s.viStream ++ [⟨ts, s.latestTc⟩] ∧ lv = some ⟨ts, s.latestTc⟩) := by
  obtain ⟨ts, d, he, hrec, hnot⟩ := videoIndexNow_eq s
  unfold recompute
  rw [he]
  dsimp only
  by_cases hl : s.lastVi = some ⟨ts, s.latestTc⟩
  · exact ⟨ts, d, s.viStream, s.lastVi, if_pos hl, hrec, hnot, fun _ => ⟨rfl, rfl⟩, absurd hl⟩
  · exact ⟨ts, d, _, _, if_neg hl, hrec, hnot, fun h => absurd h hl, fun _ => ⟨rfl, rfl⟩⟩

theorem hubStep_of_getElem? {s : State} {e : Event} (he : s.evlog[s.hubPos]? = some e) :
    hubStep s = hubEvent { s with hubPos := s.hubPos + 1 } e := by
  rw [hubStep, he]

theorem step_hub {s : State} {r : List Move} (h : s.schedule = .hub :: r) :
    step s = .next (hubStep { s with schedule := r }) := step_of_cons h

/-! ### The dispatcher -/

theorem publishNoop_eq (s : State) : ∃ lv, (lv = s.lastVi ∨ lv = some ⟨some (Config.now s.draws), none⟩) ∧
    publishNoop s = { s with
      draws := s.draws + 1, viStream := s.viStream ++ [⟨some (Config.now s.draws), none⟩], lastVi := lv } := by
  unfold publishNoop
  dsimp only
  cases Config.noopSetsLastVi with
  | false => exact ⟨_, .inl rfl, rfl⟩
  | true => exact ⟨_, .inr rfl, rfl⟩

end Sys2Proof.Machine

open Sys2Proof Sys2Proof.Machine

/-- Settles O34: PARSE hands the tag to the parser, which reads it in the status arm only. -/
theorem tagReachesOnlyTheStatusDecoder : Obligations.TagReachesOnlyTheStatusDecoder := by
  intro s t g hs h
  obtain ⟨hn, rfl⟩ := execParse_next h
  refine (execParse_eq _).trans ((if_pos hn).trans ?_)
  exact congrArg (fun u : State => Host.Outcome.next (u.setPhase .idle)) (parseReply_tag (s := s.debugLog _) hs _ _ s.tag g)

/-- Settles O35: the events appended are `replyEvents` of what the two states agree on. -/
theorem parseEventDependsOnTheReplyOnly : Obligations.ParseEventDependsOnTheReplyOnly := by
  intro s s' t t' hcfg hh hn hd hc hg hl hv h h'
  have he := exec_parse_evlog h
  have he' := exec_parse_evlog h'
  rw [← hcfg, ← hh, ← hn, ← hd, ← hc, ← hg, ← hl, ← hv] at he'
  exact ⟨_, length_replyEvents_le .., he, he'⟩

/-- Settles O40: a timecode and a state event are a `recompute` on the state with the latest value; the other two
kinds leave the hub's values. -/
theorem videoIndexIsDistinctUntilChanged : Obligations.VideoIndexIsDistinctUntilChanged := by
  intro s r e hs he
  have hstep := step_hub hs
  rw [hubStep_of_getElem? (s := { s with schedule := r }) he] at hstep
  rw [hstep]
  refine ⟨fun tc st h => ?_, fun h => ?_⟩
  · obtain ⟨T, rfl, rfl, rfl⟩ | ⟨v, rfl, rfl, rfl⟩ := h
    · obtain ⟨ts, d, vs, lv, hr, h⟩ :=
        recompute_eq { s with schedule := r, hubPos := s.hubPos + 1, latestTc := some T }
      exact ⟨ts, d, vs, lv, congrArg _ hr, h⟩
    · obtain ⟨ts, d, vs, lv, hr, h⟩ :=
        recompute_eq { s with schedule := r, hubPos := s.hubPos + 1, latestState := some v }
      exact ⟨ts, d, vs, lv, congrArg _ hr, h⟩
  · obtain ⟨w, g, c, rfl⟩ | ⟨x, rfl⟩ := h
    · rfl
    · rfl

/-- Settles O37: the dispatcher's row is this update of the queue. -/
theorem requestUserbitsFansOut : Obligations.RequestUserbitsFansOut := fun _ => rfl

/-- Settles O38: both no-op commands run `publishNoop`. -/
theorem noopCommandsSendNothing : Obligations.NoopCommandsSendNothing := by
  intro s i hi
  obtain ⟨lv, hlv, he⟩ := publishNoop_eq s
  simp only [List.mem_cons, List.not_mem_nil, or_false] at hi
  obtain rfl | rfl := hi
  · exact ⟨lv, hlv, congrArg _ he⟩
  · exact ⟨lv, hlv, congrArg _ he⟩

/-- Settles O39: the table's answer, its frame's shape and the free port are the tests of `execOtherVideoCommand`. -/
theorem otherCommandsAreLookedUp : Obligations.OtherCommandsAreLookedUp := by
  intro s c
  show (_ → execOtherVideoCommand c s = _) ∧ ∀ f, _ → (_ → (_ → execOtherVideoCommand c s = _) ∧
    (_ → execOtherVideoCommand c s = _)) ∧ (_ → execOtherVideoCommand c s = _)
  rw [← ready_iff, execOtherVideoCommand]
  refine ⟨fun he => by rw [he], fun f he => ?_⟩
  rw [he]
  dsimp only
  refine ⟨fun hw => ⟨fun hr => ?_, fun hr => ?_⟩, fun hw => ?_⟩
  · rw [hw, Bool.not_true, if_neg (by simp), if_pos hr]
  · rw [hw, Bool.not_true, if_neg (by simp), if_neg hr]
  · rw [hw, Bool.not_false, if_pos rfl]

end

section
/-! Whole cycles (spec/44_framer_cycle.md; O59, O60): every framer step of a running cycle brings IDLE nearer, and
the run of a cycle in which nothing fails. -/

namespace Sys2Proof.Machine

variable {s t : State}

/-! ### Every cycle ends -/

/-- How many framer steps a cycle in this phase takes at most (R140). -/
def stepsLeft : Phase → Nat
  | .idle => 0
  | .send => 7
  | .waitA => 6
  | .hdr => 5
  | .data => 4
  | .waitB => 3
  | .cks => 2
  | .decode => 1

theorem stepsLeft_le (p : Phase) : stepsLeft p ≤ 7 := by cases p <;> decide

theorem Framed.schedule (h : Framed s t) : t.schedule = s.schedule := by
  cases h with
  | parse hp ln h => obtain ⟨_, _, _, _, _, _, -, rfl⟩ := parsed_eq h; rfl
  | _ => subst_vars; rfl

theorem Framed.channelAnswers (h : Framed s t) (hc : s.channelAnswers) : t.channelAnswers := by
  cases h with
  | send hp r hs => subst_vars; exact fun hn => hc (hs.subset hn)
  | hdr hp r hs => subst_vars; exact fun hn => hc (hs.subset hn)
  | silent hp r hs => subst_vars; exact fun hn => hc (hs.subset hn)
  | data hp r hs => subst_vars; exact fun hn => hc (hs.subset hn)
  | cks hp r hs => subst_vars; exact fun hn => hc (hs.subset hn)
  | fail hp r hs => subst_vars; exact fun hn => hc (hs.subset hn)
  | parse hp ln h => obtain ⟨_, _, _, _, _, _, -, rfl⟩ := parsed_eq h; exact hc
  | _ => subst_vars; exact hc

/-- Where every primitive answers, a framer step of a running cycle brings IDLE nearer. -/
theorem Framed.stepsLeft_lt (h : Framed s t) (hc : s.channelAnswers) (hp : s.phase ≠ .idle) :
    stepsLeft t.phase < stepsLeft s.phase := by
  cases h with
  | stay hn => exact (hn.elim (fun h => hp h.1) hc).elim
  | accept r hi => exact absurd hi hp
  | wait p hp => subst_vars; obtain ⟨hp, rfl⟩ | ⟨hp, rfl⟩ := hp <;> simp [hp, stepsLeft]
  | hdr hp => subst_vars; rw [hp]; dsimp only; split <;> simp [stepsLeft]
  | fail => subst_vars; cases hs : s.phase <;> simp_all [stepsLeft]
  | send hp => subst_vars; simp [hp, stepsLeft]
  | silent hp => subst_vars; simp [hp, stepsLeft]
  | data hp => subst_vars; simp [hp, stepsLeft]
  | cks hp => subst_vars; simp [hp, stepsLeft]
  | parse hp => subst_vars; simp [hp, stepsLeft]

/-- One framer step of a running cycle. -/
theorem step_framer_framed {r : List Move} (hi : s.Inv) (hs : s.schedule = .framer :: r) :
    ∃ t, step s = .next t ∧ Framed { s with schedule := r } t := by
  obtain ⟨t, ht⟩ := exec_phaseStep_next (s := { s with schedule := r }) { hi with }
  exact ⟨t, (step_framer hs).trans ht, phaseStep_cases ht⟩

/-- With as many framer moves ahead as the phase takes, the cycle ends: induction on the moves. -/
theorem run_to_idle (n : Nat) (r : List Move) : ∀ s : State, s.Inv → s.channelAnswers → stepsLeft s.phase ≤ n →
    s.schedule = List.replicate n .framer ++ r → ∃ k t, k ≤ n ∧ core.run k s = .next t ∧ t.phase = .idle := by
  induction n with
  | zero =>
    intro s _ _ hn _
    exact ⟨0, s, Nat.le_refl 0, rfl, by cases hp : s.phase <;> simp_all [stepsLeft]⟩
  | succ n ih =>
    intro s hi hc hn hs
    by_cases hp : s.phase = .idle
    · exact ⟨0, s, Nat.zero_le _, rfl, hp⟩
    · obtain ⟨t, ht, hf⟩ := step_framer_framed hi hs
      have hlt := hf.stepsLeft_lt hc hp
      obtain ⟨k, u, hk, hrun, hu⟩ := ih t (hi.step ht) (hf.channelAnswers hc) (Nat.le_of_lt_succ (Nat.lt_of_lt_of_le hlt hn))
        hf.schedule
      exact ⟨k + 1, u, Nat.succ_le_succ hk, (run_succ k ht).trans hrun, hu⟩

/-! ### The good cycle -/

/-- Two runs, one after the other. -/
theorem run_trans {a b : Nat} {s t : State} (h : core.run a s = .next t) : core.run (a + b) s = core.run b t := by
  induction a generalizing s with
  | zero => cases h; rw [Nat.zero_add]
  | succ a ih =>
    cases hs : step s with
    | next u =>
      rw [run_succ a hs] at h
      rw [Nat.succ_add, run_succ _ hs]
      exact ih h
    | fault e => simp [Host.Core.run, show core.step s = _ from hs] at h
    | refused e => simp [Host.Core.run, show core.step s = _ from hs] at h

/-- One move of the framer. -/
theorem run_framer {p : Phase} {r : List Move} (hp : s.phase = p) (hs : s.schedule = .framer :: r)
    (he : exec (phaseStep p) { s with schedule := r } = .next t) : core.run 1 s = .next t :=
  run_succ 0 ((step_framer hs).trans (hp ▸ he))

theorem okAnswers_of_nil (hc : s.chan = []) (n : Nat) : s.okAnswers n := by simp [State.okAnswers, hc]

theorem drop_chan_of_nil (hc : s.chan = []) (n : Nat) : s.chan.drop n = s.chan := by rw [hc, List.drop_nil]

/-- ACCEPT and SEND: the stamped frame goes out (R131, R132). -/
theorem run_transmit {rq : Request} {r : List Move} (hp : s.phase = .idle) (hr : s.req = some rq) (hc : s.chan = [])
    (hs : s.schedule = .framer :: .framer :: r) : ∃ l, core.run 2 s = .next { s with
      schedule := r
      txbuf := stampInto s.txbuf rq.frame
      txlen := BitVec.ofNat 5 rq.frame.bytes.length
      tag := rq.tag
      req := none
      txstream := s.txstream ++ Codec.stamp rq.frame.bytes
      log := l
      phase := .waitA } := by
  have accept := run_framer hp hs (exec_accept_of_req_some (s := { s with schedule := .framer :: r }) hr)
  have hlen := toNat_txlen_of_frame rq.frame
  have send := exec_send_ok (s := { s with
      schedule := r
      txbuf := stampInto s.txbuf rq.frame
      txlen := BitVec.ofNat 5 rq.frame.bytes.length
      tag := rq.tag
      req := none
      phase := .send }) (Nat.le_trans (Nat.le_of_eq hlen) rq.frame.le) (okAnswers_of_nil hc 1)
  dsimp only at send
  rw [drop_chan_of_nil hc, hlen, take_bytes_stampInto] at send
  exact ⟨_, (run_trans (b := 1) accept).trans (run_framer rfl rfl send)⟩

/-- WAIT_A and RDHDR (R133, R134). -/
theorem run_header {a b : Byte} {rest : List Byte} {r : List Move} (hp : s.phase = .waitA) (hi : s.intr = false)
    (hc : s.chan = []) (hf : s.rxfifo = a :: b :: rest) (hs : s.schedule = .framer :: .framer :: r) :
    core.run 2 s = .next { s with
      schedule := r
      tmr := .expired
      waitedMs := s.waitedMs + s.cfg.delay
      rxhdr := ⟨a, b⟩
      rxn := BitVec.ofNat 4 (Codec.len a)
      rxfifo := rest
      phase := if 0 < Codec.len a then .data else .waitB } := by
  have wait := run_framer hp hs (exec_waitA_ok (s := { s with schedule := .framer :: r }) hi)
  have read := exec_rdhdr_ok (s := { s with
    schedule := r, tmr := .expired, waitedMs := s.waitedMs + s.cfg.delay, phase := .hdr }) hf (okAnswers_of_nil hc 2)
  dsimp only at read
  rw [drop_chan_of_nil hc] at read
  exact (run_trans (b := 1) wait).trans (run_framer rfl rfl read)

theorem readInto_nil (b : Buffer 15) : readInto b [] = b := by
  have hb : (readInto b []).bytes = b.bytes := bytes_readInto b (Nat.zero_le 15)
  cases b
  cases h : readInto _ _
  simp_all

/-- RDDATA, in a cycle whose reply announces data, and no step in another (R134, R135). -/
theorem run_data {d : List Byte} {c : Byte} {r : List Move} (hc : s.chan = []) (hf : s.rxfifo = d ++ [c])
    (hn : s.rxn.toNat = d.length) (hp : s.phase = if 0 < d.length then .data else .waitB)
    (hs : s.schedule = (if d = [] then [] else [.framer]) ++ r) : core.run (if d = [] then 0 else 1) s = .next { s with
      schedule := r, rxdata := readInto s.rxdata d, rxfifo := [c], phase := .waitB } := by
  by_cases hd : d = []
  · subst hd
    rw [if_pos rfl, List.nil_append] at hs
    rw [List.nil_append] at hf
    rw [readInto_nil, ← hs, ← hf, ← show s.phase = .waitB from hp]
    rfl
  · rw [if_neg hd] at hs ⊢
    rw [if_pos (List.length_pos_iff.2 hd)] at hp
    have hle : s.rxn.toNat ≤ s.rxfifo.length := by rw [hf, hn, List.length_append]; omega
    have htake : s.rxfifo.take s.rxn.toNat = d := by rw [hf, hn, List.take_left]
    have hdrop : s.rxfifo.drop s.rxn.toNat = [c] := by rw [hf, hn, List.drop_left]
    have read := exec_rddata_ok (s := { s with schedule := r }) hle (okAnswers_of_nil hc 2)
    dsimp only at read
    rw [drop_chan_of_nil hc, htake, hdrop] at read
    exact run_framer hp hs read

/-- WAIT_B and RDCKS (R136, R137). -/
theorem run_checksum {c : Byte} {r : List Move} (hp : s.phase = .waitB) (hi : s.intr = false)
    (hc : s.chan = []) (hf : s.rxfifo = [c]) (hs : s.schedule = .framer :: .framer :: r) :
    core.run 2 s = .next { s with
      schedule := r
      tmr := .expired
      waitedMs := s.waitedMs + s.cfg.delay
      rxcks := c
      rxfifo := []
      phase := .decode } := by
  have wait := run_framer hp hs (exec_waitB_ok (s := { s with schedule := .framer :: r }) hi)
  have read := exec_rdcks_ok (s := { s with
    schedule := r, tmr := .expired, waitedMs := s.waitedMs + s.cfg.delay, phase := .cks }) hf (okAnswers_of_nil hc 2)
  dsimp only at read
  rw [drop_chan_of_nil hc] at read
  exact (run_trans (b := 1) wait).trans (run_framer rfl rfl read)

/-- DEVICE's move (R66). -/
theorem run_device {bs : List Byte} {r : List Move} (hs : s.schedule = .device bs :: r) :
    core.run 1 s = .next { s with schedule := r, rxfifo := s.rxfifo ++ bs } := run_succ 0 (step_device hs)

/-- The state of a good cycle before PARSE: the stamped frame is out, the reply stands whole in the inbound
registers, both delays have passed. -/
def beforeParse (s : State) (rq : Request) (h : Header) (d : List Byte) (c : Byte) (l : List LogLine) (r : List Move) :
    State := { s with
  schedule := r
  txbuf := stampInto s.txbuf rq.frame
  txlen := BitVec.ofNat 5 rq.frame.bytes.length
  tag := rq.tag
  req := none
  txstream := s.txstream ++ Codec.stamp rq.frame.bytes
  log := l
  rxhdr := h
  rxn := BitVec.ofNat 4 (Codec.len h.cmd1)
  rxdata := readInto s.rxdata d
  rxcks := c
  rxfifo := []
  tmr := .expired
  waitedMs := s.waitedMs + s.cfg.delay + s.cfg.delay
  phase := .decode }

/-- The moves of a good cycle before PARSE (R130). -/
theorem run_beforeParse {rq : Request} {h : Header} {d : List Byte} {c : Byte} {r : List Move} (hp : s.phase = .idle)
    (hr : s.req = some rq) (hi : s.intr = false) (hc : s.chan = []) (hf : s.rxfifo = [])
    (hd : d.length = Codec.len h.cmd1)
    (hs : s.schedule = .framer :: .framer :: .device (h.bytes ++ d ++ [c]) :: .framer :: .framer ::
      ((if d = [] then [] else [.framer]) ++ (.framer :: .framer :: r))) :
    ∃ l, core.run (2 + (1 + (2 + ((if d = [] then 0 else 1) + 2)))) s = .next (beforeParse s rq h d c l r) := by
  have reply : s.rxfifo ++ (h.bytes ++ d ++ [c]) = h.cmd1 :: h.cmd2 :: (d ++ [c]) := by simp [hf, Header.bytes]
  obtain ⟨l, transmit⟩ := run_transmit hp hr hc hs
  refine ⟨l, Eq.trans (run_trans transmit) ?_⟩
  refine Eq.trans (run_trans (run_device rfl)) ?_
  refine Eq.trans (run_trans (run_header rfl hi hc reply rfl)) ?_
  refine Eq.trans (run_trans (run_data hc rfl ((toNat_ofNat_len h.cmd1).trans hd.symm) (by rw [hd]) rfl)) ?_
  exact run_checksum rfl hi hc rfl rfl

/-- PARSE runs the arm the received reply decodes to, which writes the cells and EVLOG only (R138, R161). -/
theorem exec_parse_eq {d : List Byte} (hn : s.rxn.toNat = Codec.len s.rxhdr.cmd1)
    (hd : s.rxdata.bytes.take s.rxn.toNat = d) : ∃ l tc ul uv st es,
    exec (replyInstr s.cfg s.rxhdr d s.rxcks) { s with log := l } = .next { s with
      log := l, curTc := tc, curUbLocal := ul, curUbVert := uv, curState := st, evlog := s.evlog ++ es } ∧
    exec .parse s = .next { s with
      log := l, curTc := tc, curUbLocal := ul, curUbVert := uv, curState := st, evlog := s.evlog ++ es, phase := .idle } := by
  subst hd
  obtain ⟨v, harm, hparse⟩ := exec_parse_runs_replyInstr hn
  generalize LogLine.inbound _ = ln at harm
  have hv := (exec_replyInstr (s.debugLog ln) s.rxhdr (s.rxdata.bytes.take s.rxn.toNat) s.rxcks).symm.trans harm
  obtain ⟨tc, ul, uv, st, es, -, he⟩ := parseReply_eq (s.debugLog ln) s.rxhdr (s.rxdata.bytes.take s.rxn.toNat) s.rxcks s.tag
  obtain rfl : _ = v := he.symm.trans (Host.Outcome.next.inj hv)
  exact ⟨_, tc, ul, uv, st, es, harm, hparse⟩

end Sys2Proof.Machine

open Sys2Proof Sys2Proof.Machine

/-- Settles O59: no phase takes more than seven steps. -/
theorem everyCycleEnds : Obligations.EveryCycleEnds := fun s r hi hc hs =>
  run_to_idle 7 r s hi hc (stepsLeft_le s.phase) hs

/-- Settles O60: the moves before PARSE leave the reply in the inbound registers; PARSE then runs the arm it
decodes to, on a state that has the request's tag. -/
theorem goodCycleDeliversTheReply : Obligations.GoodCycleDeliversTheReply := by
  intro s rq h d c r hp hr hi hc hf hd hs
  have hd : d.length = Codec.len h.cmd1 := hd
  have h15 : d.length ≤ 15 := Nat.le_of_lt_succ (hd ▸ Codec.len_lt h.cmd1)
  have hrxn : (BitVec.ofNat 4 (Codec.len h.cmd1)).toNat = d.length := (toNat_ofNat_len h.cmd1).trans hd.symm
  have hdata : (readInto s.rxdata d).bytes.take (BitVec.ofNat 4 (Codec.len h.cmd1)).toNat = d := by
    rw [hrxn, bytes_readInto _ h15, List.take_left]
  have hcount : (if d = [] then 8 else 9) = 2 + (1 + (2 + ((if d = [] then 0 else 1) + 2))) + 1 := by split <;> rfl
  obtain ⟨l, before⟩ := run_beforeParse (c := c) (r := .framer :: r) hp hr hi hc hf hd
    (hs.trans (by rw [List.append_assoc, List.append_assoc]; rfl))
  obtain ⟨l', tc, ul, uv, st, es, arm, parse⟩ :=
    exec_parse_eq (s := beforeParse s rq h d c l r) (hrxn.trans hd) hdata
  have run := (run_trans (b := 1) before).trans (run_framer rfl rfl parse)
  rw [← hcount] at run
  refine ⟨_, _, _, _, decode_reply c hd, run, arm, rfl, rfl, rfl, rfl, rfl, rfl, rfl, rfl, rfl, rfl, rfl, rfl,
    rfl, rfl, rfl, rfl, ?_, ?_⟩
  · show s.waitedMs + s.cfg.delay + s.cfg.delay = _
    omega
  · have hne := List.ne_nil_of_length_pos rq.frame.pos
    exact ⟨rq.frame.bytes.dropLast, rq.frame.bytes.getLast hne, _, (List.dropLast_concat_getLast hne).symm,
      toNat_cksum_eq_byteSum _, (List.append_assoc ..).symm⟩

end
